-- ==== Sys2Proof/Word.lean ====
section
/-! DEFINITION. The machine's word types (`00_scope.md` R10, R13). Virtual time, in nanoseconds, is a plain `Int`: a
mathematical integer with no wrap-around (R9, D5). -/

namespace Sys2Proof

/-- A bus byte and an 8-bit register (R13, R61). -/
abbrev Byte := BitVec 8

/-- The counter and the four data registers (R13). -/
abbrev Word16 := BitVec 16

/-- The program counter of the CPU core in its widest form, three bytes (R8 `PC_BYTES`, R42);
a narrower one keeps its unused high bits 0. -/
abbrev Pc := BitVec 24

end Sys2Proof
end

