-- ==== Sys2Proof/Config.lean ====
section
/-! DEFINITION. The parameters of `00_scope.md` R8, those the spec leaves OPEN and those it DECIDED but keeps symbolic
(`92_eei_decisions.md`). They are plain data that `State` carries unchanged, so that every statement about all states
is a statement about all parameters. -/

namespace Sys2Proof

/-- `PC_BYTES` is 1, 2 or 3 (R8, D24). -/
inductive PcWidth where
  | one
  | two
  | three
  deriving DecidableEq, Repr

/-- The number of bytes `PushPC` stores (R262). -/
def PcWidth.bytes : PcWidth → Nat
  | .one => 1
  | .two => 2
  | .three => 3

/-- The parameters of one timer unit; every unit has its own copy (R8, R48). A DECIDED parameter has the value the
spec decided as its default (D1, D2 and D15, which the spec takes from general knowledge: log entry 11). -/
structure TimerParams where
  /-- `F_BASE_HZ` (D4) -/
  fBaseHz : Nat
  /-- `WIN_MAIN_BASE` (D26) -/
  winMainBase : Nat
  /-- `WIN_MASK_ADDR` (D26) -/
  winMaskAddr : Nat
  /-- `WIN_FLAGS_ADDR` (D26) -/
  winFlagsAddr : Nat
  /-- `IRQ_INDEX_OVF` (D25), and so on -/
  irqOvf : Nat
  irqOca : Nat
  irqOcb : Nat
  irqOcc : Nat
  irqIcf : Nat
  /-- `BIT_OVF` (D1), and so on: the bit of each source in the mask and flags registers -/
  bitOvf : Fin 8 := 0
  bitOca : Fin 8 := 1
  bitOcb : Fin 8 := 2
  bitOcc : Fin 8 := 3
  bitIcf : Fin 8 := 5
  /-- `MODE_NORMAL`, `MODE_CTC_A`, `MODE_CTC_ICR` (D2): the mode numbers of the three supported modes -/
  modeNormal : BitVec 4 := 0
  modeCtcA : BitVec 4 := 4
  modeCtcIcr : BitVec 4 := 12
  /-- `CRC_FORCE_MASK` (D15): the force-compare bits of Control C -/
  crcForceMask : Byte := 0xE0
  deriving DecidableEq, Repr

/-- The parameters all timer units share: those of the CPU interrupt controller (R8). `N_TIMERS` is the
length of `State.timers`. -/
structure MachineParams where
  /-- `N_SRC` (D25) -/
  nSrc : Nat
  /-- `BASE_VECTOR` (D25) -/
  baseVector : Int
  /-- `VECTOR_SIZE` (D25) -/
  vectorSize : Nat
  /-- `RESET_VECTOR` (D23) -/
  resetVector : Int
  /-- `PC_BYTES` (D24) -/
  pcWidth : PcWidth
  deriving DecidableEq, Repr

/-- The five indices a unit's lines are wired to. -/
def TimerParams.irqIndices (p : TimerParams) : List Nat :=
  [p.irqOvf, p.irqOca, p.irqOcb, p.irqOcc, p.irqIcf]

/-- The five bit positions. -/
def TimerParams.bitPositions (p : TimerParams) : List (Fin 8) :=
  [p.bitOvf, p.bitOca, p.bitOcb, p.bitOcc, p.bitIcf]

/-- The three supported mode numbers. -/
def TimerParams.modeNumbers (p : TimerParams) : List (BitVec 4) :=
  [p.modeNormal, p.modeCtcA, p.modeCtcIcr]

/-- The test values of `95_test_vectors.md` §0, which `State.reset` uses because the spec leaves the
parameters OPEN. DESIGN CHOICE, unsafe for claims about `State.reset` only (log entry 1). The window bases
are not in that section: any three that do not overlap. The DECIDED parameters have their decided values. -/
def TimerParams.vectors : TimerParams where
  fBaseHz := 16000000
  winMainBase := 0x80
  winMaskAddr := 0x6F
  winFlagsAddr := 0x36
  irqOvf := 20
  irqOca := 17
  irqOcb := 18
  irqOcc := 19
  irqIcf := 16

/-- As `TimerParams.vectors` (log entry 1). -/
def MachineParams.vectors : MachineParams where
  nSrc := 32
  baseVector := 0
  vectorSize := 2
  resetVector := 0
  pcWidth := .two

end Sys2Proof
end

