-- ==== Sys2Proof/Syntax.lean ====
section
/-! DEFINITION. The 38 operations of `30_encoding.md` R100, one constructor each, and the envelope in which the
environment presents one (`20_memory.md` R60, `30_encoding.md` R90). -/

namespace Sys2Proof

/-- One constructor per row of `spec/opcode_table.json`. A `WR_` operation carries its data byte; the time
`now` and the addressed timer unit belong to the envelope (`Transaction`). -/
inductive Instr where
  /-- RD_CRA (R141) -/
  | rdCra
  /-- WR_CRA (R142) -/
  | wrCra (v : Byte)
  /-- RD_CRB (R143) -/
  | rdCrb
  /-- WR_CRB (R144) -/
  | wrCrb (v : Byte)
  /-- RD_CRC (R145) -/
  | rdCrc
  /-- WR_CRC (R146) -/
  | wrCrc (v : Byte)
  /-- RD_RSV3 (R147) -/
  | rdRsv3
  /-- WR_RSV3 (R148) -/
  | wrRsv3 (v : Byte)
  /-- RD_CNTL (R149) -/
  | rdCntl
  /-- WR_CNTL (R150) -/
  | wrCntl (v : Byte)
  /-- RD_CNTH (R151) -/
  | rdCnth
  /-- WR_CNTH (R152) -/
  | wrCnth (v : Byte)
  /-- RD_ICRL (R153) -/
  | rdIcrl
  /-- WR_ICRL (R154) -/
  | wrIcrl (v : Byte)
  /-- RD_ICRH (R155) -/
  | rdIcrh
  /-- WR_ICRH (R156) -/
  | wrIcrh (v : Byte)
  /-- RD_OCRAL (R157) -/
  | rdOcral
  /-- WR_OCRAL (R158) -/
  | wrOcral (v : Byte)
  /-- RD_OCRAH (R159) -/
  | rdOcrah
  /-- WR_OCRAH (R160) -/
  | wrOcrah (v : Byte)
  /-- RD_OCRBL (R161) -/
  | rdOcrbl
  /-- WR_OCRBL (R162) -/
  | wrOcrbl (v : Byte)
  /-- RD_OCRBH (R163) -/
  | rdOcrbh
  /-- WR_OCRBH (R164) -/
  | wrOcrbh (v : Byte)
  /-- RD_OCRCL (R165) -/
  | rdOcrcl
  /-- WR_OCRCL (R166) -/
  | wrOcrcl (v : Byte)
  /-- RD_OCRCH (R167) -/
  | rdOcrch
  /-- WR_OCRCH (R168) -/
  | wrOcrch (v : Byte)
  /-- RD_IMSK (R169) -/
  | rdImsk
  /-- WR_IMSK (R170) -/
  | wrImsk (v : Byte)
  /-- RD_IFR (R171) -/
  | rdIfr
  /-- WR_IFR (R172) -/
  | wrIfr (v : Byte)
  /-- ALARM_FIRE (R234) -/
  | alarmFire
  /-- DECISION_POINT (R253) -/
  | decisionPoint
  /-- CPU_RESET (R290) -/
  | cpuReset
  /-- ENV_SET_I (R263) -/
  | envSetI (b : Bool)
  /-- ENV_RETI (R264) -/
  | envReti
  /-- ENV_RESET_REQ (R265) -/
  | envResetReq
  deriving DecidableEq, Repr

/-- The two operation formats (R90). -/
inductive Format where
  | bus
  | evt
  deriving DecidableEq, Repr

/-- What the environment presents to the machine: one operation with what it carries (R60, R90). -/
structure Transaction where
  /-- the time `now` of the operation (R9) -/
  now : Int
  /-- the timer unit whose windows or alarm it is for (R48); the CPU-side events ignore it -/
  timer : Nat
  /-- the access width in bytes of a BUS transaction (R67); an event ignores it -/
  width : Nat
  /-- the transaction word `T` (R99), then the data byte of a write or the operand of ENV_SET_I; bytes after
  the operation are not part of it -/
  bytes : List Byte
  /-- the program counter the CPU core has reached by now, where the core has moved it since this block last
  wrote it (R266) -/
  pcIn : Option Pc
  deriving DecidableEq, Repr

end Sys2Proof
end

