-- ==== Sys2Proof/WellFormed.lean ====
section
/-! DEFINITION. Which terms are well formed: instructions, parameters (`00_scope.md` R8) and presented
transactions (R9, R48, R67). -/

namespace Sys2Proof

/-- Every term of `Instr` is well formed: its operands are a byte (R63) or a bit (R263) by their type, and a
term outside those ranges cannot be written. -/
def Instr.wf : Instr → Bool := fun _ => true

/-- The domain R8 gives the base frequency: every divider gives a nonzero period. -/
def TimerParams.frequencyWf (p : TimerParams) : Bool :=
  decide (1024 ≤ p.fBaseHz) && decide (p.fBaseHz ≤ 1000000000)

/-- The domain D1 and D2 give the DECIDED parameters: five distinct bit positions, three distinct mode numbers. -/
def TimerParams.layoutWf (p : TimerParams) : Bool :=
  decide p.bitPositions.Nodup && decide p.modeNumbers.Nodup

/-- First address and length of the three windows of a unit (R61). -/
def TimerParams.windows (p : TimerParams) : List (Nat × Nat) :=
  [(p.winMainBase, 14), (p.winMaskAddr, 1), (p.winFlagsAddr, 1)]

/-- Two windows have no address in common. -/
def windowsApart (a b : Nat × Nat) : Bool :=
  decide (a.1 + a.2 ≤ b.1) || decide (b.1 + b.2 ≤ a.1)

/-- The windows of all units are apart, pair by pair (D26). -/
def allApart : List (Nat × Nat) → Bool
  | [] => true
  | w :: ws => ws.all (windowsApart w) && allApart ws

/-- The domain R8 gives the parameters of a machine with the units `ps`: at least one unit, every base
frequency in its domain, bit positions and mode numbers distinct, all line indices distinct and inside the bitmap
(R48, D25), the windows apart, the vectors at least one unit of the program counter apart. -/
def MachineParams.wf (m : MachineParams) (ps : List TimerParams) : Bool :=
  decide (1 ≤ ps.length) && ps.all TimerParams.frequencyWf
    && ps.all TimerParams.layoutWf && decide (5 ≤ m.nSrc)
    && decide (ps.flatMap TimerParams.irqIndices).Nodup
    && ps.all (fun p => p.irqIndices.all (fun i => decide (i < m.nSrc)))
    && allApart (ps.flatMap TimerParams.windows) && decide (1 ≤ m.vectorSize)

/-- A transaction the environment may present after time `last` to a machine of `n` units: a unit that exists
(R48), a time that does not decrease (R9), one byte wide (R67). -/
def Transaction.wf (n : Nat) (last : Int) (t : Transaction) : Bool :=
  decide (t.timer < n) && decide (last ≤ t.now) && decide (t.width = 1)

end Sys2Proof
end

