-- ==== Sys2Proof/Decode.lean ====
section
/-! DEFINITION. The decoder of the transaction word (`30_encoding.md` R99 to R101), total on any bytes, and after it
the encoder. The first byte holds `T` in bits 6:0; the data byte of a write, and the operand of ENV_SET_I, stand
beside `T`, in the second byte. -/

namespace Sys2Proof

/-- Why a list of bytes is no operation. -/
inductive DecodeError where
  /-- there is no byte -/
  | noWord
  /-- bit 7 of the first byte is 1: `T` has 7 bits (R99) -/
  | notSevenBits
  /-- main-window offset 0xe or 0xf (R64, R101) -/
  | outsideMainWindow
  /-- mask-window offset other than 0 (R65, R101) -/
  | outsideMaskWindow
  /-- flags-window offset other than 0 (R65, R101) -/
  | outsideFlagsWindow
  /-- event number above 5 (R101) -/
  | unassignedEvent
  /-- the data byte of a write, or the operand of ENV_SET_I, is missing (R63, R263) -/
  | missingOperand
  /-- the operand of ENV_SET_I is not one bit (R263) -/
  | operandNotABit
  deriving DecidableEq, Repr

/-- What a transaction word asks for beside itself. -/
inductive Shape where
  | plain (i : Instr)
  | withByte (f : Byte → Instr)
  | withBit (f : Bool → Instr)

/-- The read of a main-window offset (R64). -/
def mainRead : Nat → Option Instr
  | 0 => some .rdCra
  | 1 => some .rdCrb
  | 2 => some .rdCrc
  | 3 => some .rdRsv3
  | 4 => some .rdCntl
  | 5 => some .rdCnth
  | 6 => some .rdIcrl
  | 7 => some .rdIcrh
  | 8 => some .rdOcral
  | 9 => some .rdOcrah
  | 10 => some .rdOcrbl
  | 11 => some .rdOcrbh
  | 12 => some .rdOcrcl
  | 13 => some .rdOcrch
  | _ => none

/-- The write of a main-window offset (R64). -/
def mainWrite : Nat → Option (Byte → Instr)
  | 0 => some .wrCra
  | 1 => some .wrCrb
  | 2 => some .wrCrc
  | 3 => some .wrRsv3
  | 4 => some .wrCntl
  | 5 => some .wrCnth
  | 6 => some .wrIcrl
  | 7 => some .wrIcrh
  | 8 => some .wrOcral
  | 9 => some .wrOcrah
  | 10 => some .wrOcrbl
  | 11 => some .wrOcrbh
  | 12 => some .wrOcrcl
  | 13 => some .wrOcrch
  | _ => none

/-- The event of an event number `T[4:0]` (R99, R100). -/
def event : Nat → Option Shape
  | 0 => some (.plain .alarmFire)
  | 1 => some (.plain .decisionPoint)
  | 2 => some (.plain .cpuReset)
  | 3 => some (.withBit .envSetI)
  | 4 => some (.plain .envReti)
  | 5 => some (.plain .envResetReq)
  | _ => none

/-- `space = T[6:5]` (R99). -/
def wordSpace (t : Byte) : Nat := (t.extractLsb' 5 2).toNat

/-- `dir = T[4]`: 0 is a read, 1 a write (R99). -/
def wordDir (t : Byte) : Bool := t.getLsbD 4

/-- `off = T[3:0]` (R99). -/
def wordOff (t : Byte) : Nat := (t.extractLsb' 0 4).toNat

/-- `T[4:0]`, the event number of a word in space 3 (R99). -/
def wordEvent (t : Byte) : Nat := (t.extractLsb' 0 5).toNat

/-- The operation a word names in the main, mask, flags or event space (R99 to R101). -/
def shapeOf (t : Byte) : Except DecodeError Shape :=
  if t.getLsbD 7 then .error .notSevenBits
  else match wordSpace t, wordDir t with
    | 0, false => match mainRead (wordOff t) with
      | some i => .ok (.plain i)
      | none => .error .outsideMainWindow
    | 0, true => match mainWrite (wordOff t) with
      | some f => .ok (.withByte f)
      | none => .error .outsideMainWindow
    | 1, false => if wordOff t = 0 then .ok (.plain .rdImsk) else .error .outsideMaskWindow
    | 1, true => if wordOff t = 0 then .ok (.withByte .wrImsk) else .error .outsideMaskWindow
    | 2, false => if wordOff t = 0 then .ok (.plain .rdIfr) else .error .outsideFlagsWindow
    | 2, true => if wordOff t = 0 then .ok (.withByte .wrIfr) else .error .outsideFlagsWindow
    | _, _ => match event (wordEvent t) with
      | some sh => .ok sh
      | none => .error .unassignedEvent

/-- The operation a list of bytes begins with, and the bytes after it; or, by name, why there is none. -/
def decode : List Byte → Except DecodeError (Instr × List Byte)
  | [] => .error .noWord
  | t :: rest => match shapeOf t with
    | .error e => .error e
    | .ok (.plain i) => .ok (i, rest)
    | .ok (.withByte f) => match rest with
      | [] => .error .missingOperand
      | v :: rest' => .ok (f v, rest')
    | .ok (.withBit f) => match rest with
      | [] => .error .missingOperand
      | v :: rest' => if v.toNat ≤ 1 then .ok (f (v.getLsbD 0), rest') else .error .operandNotABit

/-- The format of the word a list of bytes begins with: BUS in spaces 0 to 2, whatever the offset, EVT in
space 3 (R90, R99). -/
def formatOf : List Byte → Option Format
  | [] => none
  | t :: _ => if t.getLsbD 7 then none else if wordSpace t = 3 then some .evt else some .bus

/-- The transaction word `T` of an operation (R100). -/
def encodeWord : Instr → Byte
  | .rdCra => 0x00
  | .wrCra _ => 0x10
  | .rdCrb => 0x01
  | .wrCrb _ => 0x11
  | .rdCrc => 0x02
  | .wrCrc _ => 0x12
  | .rdRsv3 => 0x03
  | .wrRsv3 _ => 0x13
  | .rdCntl => 0x04
  | .wrCntl _ => 0x14
  | .rdCnth => 0x05
  | .wrCnth _ => 0x15
  | .rdIcrl => 0x06
  | .wrIcrl _ => 0x16
  | .rdIcrh => 0x07
  | .wrIcrh _ => 0x17
  | .rdOcral => 0x08
  | .wrOcral _ => 0x18
  | .rdOcrah => 0x09
  | .wrOcrah _ => 0x19
  | .rdOcrbl => 0x0a
  | .wrOcrbl _ => 0x1a
  | .rdOcrbh => 0x0b
  | .wrOcrbh _ => 0x1b
  | .rdOcrcl => 0x0c
  | .wrOcrcl _ => 0x1c
  | .rdOcrch => 0x0d
  | .wrOcrch _ => 0x1d
  | .rdImsk => 0x20
  | .wrImsk _ => 0x30
  | .rdIfr => 0x40
  | .wrIfr _ => 0x50
  | .alarmFire => 0x60
  | .decisionPoint => 0x61
  | .cpuReset => 0x62
  | .envSetI _ => 0x63
  | .envReti => 0x64
  | .envResetReq => 0x65

/-- What stands beside `T`: the data byte of a write, the operand bit of ENV_SET_I (R99, R263). -/
def encodeOperand : Instr → List Byte
  | .wrCra v | .wrCrb v | .wrCrc v | .wrRsv3 v | .wrCntl v | .wrCnth v | .wrIcrl v | .wrIcrh v
  | .wrOcral v | .wrOcrah v | .wrOcrbl v | .wrOcrbh v | .wrOcrcl v | .wrOcrch v | .wrImsk v | .wrIfr v => [v]
  | .envSetI b => [if b then 1 else 0]
  | .rdCra | .rdCrb | .rdCrc | .rdRsv3 | .rdCntl | .rdCnth | .rdIcrl | .rdIcrh
  | .rdOcral | .rdOcrah | .rdOcrbl | .rdOcrbh | .rdOcrcl | .rdOcrch | .rdImsk | .rdIfr
  | .alarmFire | .decisionPoint | .cpuReset | .envReti | .envResetReq => []

/-- The bytes of an operation. -/
def encode (i : Instr) : List Byte := encodeWord i :: encodeOperand i

/-- The two bytes, the longest operation, of a word numbered as `spec/opcode_table.json` numbers it: its low
`nbits` bits, then zeros. -/
def tableBytes (nbits w : Nat) : List Byte :=
  [BitVec.ofNat 8 (w % 2 ^ nbits), BitVec.ofNat 8 (w % 2 ^ nbits / 256)]

/-- What the decoder reads from a table word. -/
def decodeTableWord (nbits w : Nat) : Option Instr :=
  match decode (tableBytes nbits w) with
  | .ok (i, _) => some i
  | .error _ => none

end Sys2Proof
end

