-- ==== Sys2Proof/Machine/State.lean ====
section
/-! DEFINITION. The machine's state as plain data (`10_state.md` R20 to R48), its reset value (R45, R291), and the
reasons a step can stop. -/

namespace Sys2Proof.Machine

/-- The five interrupt sources of a timer unit (R12). -/
inductive Source where
  | ovf
  | oca
  | ocb
  | occ
  | icf
  deriving DecidableEq, Repr

/-- The five kinds of diagnostic (R271 to R275). -/
inductive DiagKind where
  | comparePin
  | captureNoise
  | forceCompare
  | extClock
  | pwmMode
  deriving DecidableEq, Repr

/-- A diagnostic record: the kind and the time (D34, U21). -/
structure Diag where
  kind : DiagKind
  time : Int
  deriving DecidableEq, Repr

/-- The event an armed alarm stands for: `pendingKind` of R35 and R103, less `None`, which is the absence of
an alarm. -/
inductive EventKind where
  | overflow
  | compareA
  | compareB
  | compareC
  | capture
  deriving DecidableEq, Repr

/-- The one armed alarm of a unit (R34, R35): its fields mean something only while it is armed, so that they
exist only then. -/
structure Alarm where
  kind : EventKind
  target : Word16
  deadline : Int
  deriving DecidableEq, Repr

/-- The five IRQ output lines (R36). -/
structure Lines where
  ovf : Bool
  oca : Bool
  ocb : Bool
  occ : Bool
  icf : Bool
  deriving DecidableEq, Repr

/-- The state `s` of one timer unit: the fields of R20. `armed`, `deadline`, `target` and `pendingKind` are the
field `alarm`. The counter is no field: it is derived (R24). -/
structure Timer where
  /-- Control A, B, C (R21 to R23) -/
  cra : Byte
  crb : Byte
  crc : Byte
  /-- the latch the counter and the capture register share (R29) -/
  tempHigh : Byte
  /-- the capture register (R25) and the compare registers (R26 to R28) -/
  icr : Word16
  ocra : Word16
  ocrb : Word16
  ocrc : Word16
  /-- interrupt mask (R30) and flags (R31) -/
  imsk : Byte
  ifr : Byte
  /-- frequency and tick period; a period of 0 is the stopped state (R32) -/
  freqHz : Nat
  periodNs : Nat
  /-- the time at which the logical counter was zero (R33) -/
  epoch : Int
  /-- the armed alarm (R34, R35) -/
  alarm : Option Alarm
  /-- the IRQ lines (R36) -/
  line : Lines
  /-- the output list of diagnostics, oldest first (R37) -/
  diag : List Diag
  deriving DecidableEq, Repr

/-- `armed` of R34. -/
def Timer.armed (t : Timer) : Bool := t.alarm.isSome

/-- `pendingKind` of R35: `none` is the spec's `None`. -/
def Timer.pendingKind (t : Timer) : Option EventKind := t.alarm.map Alarm.kind

/-- A timer unit: its parameters (R8) and its state (R48). -/
structure TimerUnit where
  params : TimerParams
  regs : Timer
  deriving DecidableEq, Repr

/-- The CPU side (R39 to R42). -/
structure Cpu where
  /-- the bitmap of pending sources: bit `i` at place `i` (R39) -/
  pending : List Bool
  /-- a reset-class interrupt is requested (R40) -/
  resetReq : Bool
  /-- the global-enable flag (R41) -/
  I : Bool
  /-- the program counter of the CPU core (R42) -/
  pc : Pc
  /-- the bytes `StackPush8` has stored and ENV_RETI has not popped, the last stored first: with a stack that
  grows downward these are the bytes above the stack pointer in ascending address order (R262, log entry 10) -/
  stack : List Byte
  deriving DecidableEq, Repr

/-- The machine. The last four fields are the model's own: the time of the latest operation, the timer unit it
was for, the byte it returned, and the operations the environment has still to perform (log entries 2, 16). -/
structure State where
  /-- the shared parameters; no operation changes them (R46, R292) -/
  params : MachineParams
  /-- the timer units (R48) -/
  timers : List TimerUnit
  /-- the CPU interrupt controller (R39 to R42) -/
  cpu : Cpu
  /-- the fault mark (R43) -/
  halted : Bool
  /-- `now` of the latest operation (R9) -/
  now : Int
  /-- the unit the latest operation was for -/
  sel : Nat
  /-- the byte the latest operation returned: a read returns one, nothing else does (R62, R63) -/
  result : Option Byte
  /-- the transactions to come, the next one first (R75) -/
  inputs : List Transaction
  deriving DecidableEq, Repr

/-- A timer unit's state after a reset at time `t`, or at construction (R45, R291). -/
def Timer.atReset (t : Int) : Timer where
  cra := 0
  crb := 0
  crc := 0
  tempHigh := 0
  icr := 0
  ocra := 0
  ocrb := 0
  ocrc := 0
  imsk := 0
  ifr := 0
  freqHz := 0
  periodNs := 0
  epoch := t
  alarm := none
  line := ⟨false, false, false, false, false⟩
  diag := []

/-- The CPU side at construction (R45). The spec gives `pc` no value: DESIGN CHOICE 0, unsafe (log entry 9). The
stack holds nothing (log entry 10). -/
def Cpu.atReset (m : MachineParams) : Cpu where
  pending := List.replicate m.nSrc false
  resetReq := false
  I := false
  pc := 0
  stack := []

/-- The machine constructed at time `t` with the parameters `m` and `ps` (R291), with nothing presented to it. -/
def State.construct (m : MachineParams) (ps : List TimerParams) (t : Int) : State where
  params := m
  timers := ps.map fun p => { params := p, regs := Timer.atReset t }
  cpu := Cpu.atReset m
  halted := false
  now := t
  sel := 0
  result := none
  inputs := []

/-- The machine right after reset: constructed at time 0 with the parameter values of `95_test_vectors.md`
(DESIGN CHOICE for the OPEN parameters, log entry 1). -/
def State.reset : State := State.construct MachineParams.vectors [TimerParams.vectors] 0

/-- Why the machine stops with a fault. -/
inductive Fault where
  /-- Raised by every operation and every step of a machine whose fault mark is set: a bus access of a width
  other than one byte has happened, and no operation is enabled any more (R43, R268). The spec's own fault
  state, so neither safe nor unsafe: no difference. -/
  | hostAssert
  deriving DecidableEq, Repr

/-- Why a step has no meaning. -/
inductive Refusal where
  /-- Raised by `exec` for an instruction the model gives no meaning yet. Safe. -/
  | notModelled (mnemonic : String)
  /-- Raised by `step` when the environment presents no operation and no alarm is armed: there is nothing to
  happen (R75, log entry 20). Safe. -/
  | noOperation
  /-- Raised by `step` for a transaction whose time lies before the latest operation: `now` never decreases (R9,
  log entry 13). Safe. -/
  | timeDecreases
  /-- Raised by every operation on a timer unit for a unit that does not exist (R48, log entry 14). Safe. -/
  | noSuchTimer
  /-- Raised by `step` for bytes that name no operation (R101, U10, U11, log entry 14). Safe. -/
  | noSuchOperation (e : DecodeError)
  /-- Raised by ALARM_FIRE when the unit's alarm is not armed or its deadline has not come: the operation is not
  enabled (R233, log entry 21). Safe. -/
  | alarmNotDue
  /-- Raised by ENV_RETI when no pushed program counter is left: the precondition of R264 fails (U19, log
  entry 18). Safe. -/
  | nothingPushed
  deriving DecidableEq, Repr

end Sys2Proof.Machine
end

