-- ==== Sys2Proof/Machine/Operands.lean ====
section
/-! DEFINITION. Operand forms and bit fields: byte halves of 16-bit values (`30_encoding.md` R98), the fields of the
control registers (R91 to R93, R96, R97), the unsupported patterns (R102), the program counter's bytes (R262),
and the routing of a bus address to a window (`20_memory.md` R60, R64, R65). -/

namespace Sys2Proof.Machine

/-- Bits 15:8 (R66). -/
def highByte (w : Word16) : Byte := w.extractLsb' 8 8

/-- Bits 7:0 (R66). -/
def lowByte (w : Word16) : Byte := w.extractLsb' 0 8

/-- `high : low` (R10, R98). -/
def joinBytes (high low : Byte) : Word16 := high ++ low

/-- The value with its low half replaced (R158). -/
def withLow (w : Word16) (v : Byte) : Word16 := joinBytes (highByte w) v

/-- The value with its high half replaced (R160). -/
def withHigh (w : Word16) (v : Byte) : Word16 := joinBytes v (lowByte w)

/-- `CS`, bits 2:0 of Control B (R97). -/
def csField (crb : Byte) : Nat := (crb.extractLsb' 0 3).toNat

/-- `clockSel(s)` (R191). -/
def clockSel (t : Timer) : Nat := csField t.crb

/-- `wgm = crb[4:3] : cra[1:0]` (R96, R193). PRESUMED by the spec from general knowledge (D2, log entry 11). -/
def wgm (t : Timer) : BitVec 4 := t.crb.extractLsb' 3 2 ++ t.cra.extractLsb' 0 2

/-- `v[7:2] != 0`: compare-output-pin bits of Control A (R91, R271). -/
def asksComparePin (v : Byte) : Bool := v.extractLsb' 2 6 ≠ 0

/-- `v[7:5] != 0`: capture-edge and noise-canceller bits of Control B (R92, R272). -/
def asksCaptureNoise (v : Byte) : Bool := v.extractLsb' 5 3 ≠ 0

/-- `v[2:0]` is 6 or 7: the external clocks (R97, R274). -/
def asksExtClock (v : Byte) : Bool := csField v = 6 || csField v = 7

/-- `(v & CRC_FORCE_MASK) != 0` (R93, R273). -/
def asksForceCompare (p : TimerParams) (v : Byte) : Bool := v &&& p.crcForceMask ≠ 0

/-- A value as a program counter of the machine's width: truncated to `8 * PC_BYTES` bits (R106). -/
def toPc (w : PcWidth) (x : Int) : Pc := BitVec.ofInt 24 (x % 2 ^ (8 * w.bytes))

/-- `pc[8k+7 : 8k]` (R262). -/
def pcByte (pc : Pc) (k : Nat) : Byte := pc.extractLsb' (8 * k) 8

/-- The three register windows of a unit (R61). -/
inductive Window where
  | main
  | mask
  | flags
  deriving DecidableEq, Repr

/-- The window and offset of a unit that a bus address falls in, if any: `WIN_MAIN_BASE + off` with
`off < 14`, `WIN_MASK_ADDR`, `WIN_FLAGS_ADDR` (R60, R64, R65). -/
def route (p : TimerParams) (addr : Nat) : Option (Window × Nat) :=
  if p.winMainBase ≤ addr ∧ addr < p.winMainBase + 14 then some (.main, addr - p.winMainBase)
  else if addr = p.winMaskAddr then some (.mask, 0)
  else if addr = p.winFlagsAddr then some (.flags, 0)
  else none

/-- The transaction word of a (window, direction, offset) triple (R99): `write` is `dir`. -/
def busWord (win : Window) (write : Bool) (off : Nat) : Byte :=
  let space : BitVec 2 := match win with
    | .main => 0
    | .mask => 1
    | .flags => 2
  (0 : BitVec 1) ++ space ++ BitVec.ofBool write ++ BitVec.ofNat 4 off

/-- The transaction that the platform's routing delivers for a bus access at `addr` to the unit numbered `k`
with parameters `p`: `RegRead` (no data) or `RegWrite` of `v` (R11, R60, R62, R63). -/
def busAccess (k : Nat) (p : TimerParams) (now : Int) (addr width : Nat) (v : Option Byte) :
    Option Transaction :=
  (route p addr).map fun w =>
    { now := now, timer := k, width := width,
      bytes := busWord w.1 v.isSome w.2 :: v.toList, pcIn := none }

end Sys2Proof.Machine
end

