-- ==== Sys2Proof/Machine/Flags.lean ====
section
/-! DEFINITION. Flags, lines and the pending bitmap: bit positions (`30_encoding.md` R94, R95), `SetFlag`
(`44_interrupt_latch.md` R231), the write-1-to-clear rule (`41_register_file.md` R172), and the bitmap of the CPU
interrupt controller (`60_exceptions.md` R251, R254). -/

namespace Sys2Proof.Machine

/-- `BIT_X` (R8, R94). -/
def bitIndex (p : TimerParams) : Source → Nat
  | .ovf => p.bitOvf.val
  | .oca => p.bitOca.val
  | .ocb => p.bitOcb.val
  | .occ => p.bitOcc.val
  | .icf => p.bitIcf.val

/-- The five sources in the order of R172. -/
def Source.all : List Source := [.ovf, .oca, .ocb, .occ, .icf]

/-- `IRQ_INDEX_X` (R8). -/
def irqIndex (p : TimerParams) : Source → Nat
  | .ovf => p.irqOvf
  | .oca => p.irqOca
  | .ocb => p.irqOcb
  | .occ => p.irqOcc
  | .icf => p.irqIcf

/-- `b[BIT_X]` (R12): the bit of a source in the mask, the flags or a byte written to them. -/
def bitOf (p : TimerParams) (b : Byte) (x : Source) : Bool := b.getLsbD (bitIndex p x)

/-- The byte with bit `BIT_X` set. -/
def setBit (p : TimerParams) (b : Byte) (x : Source) : Byte := b ||| (1#8 <<< bitIndex p x)

/-- The byte with bit `BIT_X` cleared. -/
def clearBit (p : TimerParams) (b : Byte) (x : Source) : Byte := b &&& ~~~(1#8 <<< bitIndex p x)

/-- `line[X]` (R36). -/
def Lines.get (l : Lines) : Source → Bool
  | .ovf => l.ovf
  | .oca => l.oca
  | .ocb => l.ocb
  | .occ => l.occ
  | .icf => l.icf

/-- `line[X] <- b`. -/
def Lines.set (l : Lines) (b : Bool) : Source → Lines
  | .ovf => { l with ovf := b }
  | .oca => { l with oca := b }
  | .ocb => { l with ocb := b }
  | .occ => { l with occ := b }
  | .icf => { l with icf := b }

/-- `s.imsk[X] = 1`: the source is enabled (R15). -/
def Timer.enabled (t : Timer) (p : TimerParams) (x : Source) : Bool := bitOf p t.imsk x

/-- `s.ifr[X] = 1`. -/
def Timer.flag (t : Timer) (p : TimerParams) (x : Source) : Bool := bitOf p t.ifr x

/-- `cpu.pending[i] <- b` (R251, R255). An index outside the bitmap has no bit (log entry 22). -/
def setPending (pending : List Bool) (i : Nat) (b : Bool) : List Bool := pending.set i b

/-- `cpu.pending[i] = 1`. -/
def isPending (pending : List Bool) (i : Nat) : Bool := pending.getD i false

/-- The least index with its bit set; none when the bitmap is all zero (R253, R254). -/
def leastPending : List Bool → Option Nat
  | [] => none
  | true :: _ => some 0
  | false :: rest => (leastPending rest).map (· + 1)

/-- `SetFlag(s, X)` (R231): the flag is set and the line raised; a rising edge sets the pending bit. -/
def setFlag (p : TimerParams) (x : Source) (t : Timer) (pending : List Bool) : Timer × List Bool :=
  ({ t with ifr := setBit p t.ifr x, line := t.line.set true x },
   if t.line.get x then pending else setPending pending (irqIndex p x) true)

/-- `SetFlag` under a condition, on a unit and the bitmap together. -/
def setFlagIf (c : Bool) (p : TimerParams) (x : Source) (tp : Timer × List Bool) : Timer × List Bool :=
  if c then setFlag p x tp.1 tp.2 else tp

/-- One turn of the loop of R172: the flag of a source written as 1 is cleared and its line lowered. -/
def ackFlag (p : TimerParams) (v : Byte) (t : Timer) (x : Source) : Timer :=
  if bitOf p v x && t.flag p x then { t with ifr := clearBit p t.ifr x, line := t.line.set false x } else t

/-- The loop of R172 over the five sources. -/
def ackFlags (p : TimerParams) (v : Byte) (t : Timer) : Timer := Source.all.foldl (ackFlag p v) t

/-- `diag(k)` at time `now` (R270). -/
def addDiag (k : DiagKind) (now : Int) (t : Timer) : Timer :=
  { t with diag := t.diag ++ [{ kind := k, time := now }] }

/-- `diag(k)` under a condition. -/
def addDiagIf (c : Bool) (k : DiagKind) (now : Int) (t : Timer) : Timer :=
  if c then addDiag k now t else t

end Sys2Proof.Machine
end

