-- ==== Sys2Proof/Machine/Counter.lean ====
section
/-! DEFINITION. CounterModel: the lazily derived counter (`40_counter_model.md` R120 to R130). Division and remainder are
those of R10: toward minus infinity, and the non-negative remainder. -/

namespace Sys2Proof.Machine

/-- `running(s)` (R121). -/
def running (t : Timer) : Bool := decide (0 < t.periodNs)

/-- `elapsedTicks(s, now)` (R122): whole ticks since the epoch, not truncated. -/
def elapsedTicks (t : Timer) (now : Int) : Int :=
  if t.periodNs = 0 then 0 else (now - t.epoch) / t.periodNs

/-- `currentCount(s, now)`, the counter CNT (R124). -/
def currentCount (t : Timer) (now : Int) : Word16 := BitVec.ofInt 16 (elapsedTicks t now)

/-- `resetToZero(s, now)` (R125). -/
def resetToZero (now : Int) (t : Timer) : Timer := { t with epoch := now }

/-- `writeRaw(s, now, value)` (R126). -/
def writeRaw (now : Int) (value : Word16) (t : Timer) : Timer :=
  { t with epoch := now - value.toNat * t.periodNs }

end Sys2Proof.Machine
end

