-- ==== Sys2Proof/Machine/Mode.lean ====
section
/-! DEFINITION. ModeController: mode decode, clock select and top value (`42_mode_controller.md` R190 to R199). -/

namespace Sys2Proof.Machine

/-- `DIV(cs)`; 0 stands for "period undefined" (R97, R192). -/
def divider : Nat → Nat
  | 1 => 1
  | 2 => 8
  | 3 => 64
  | 4 => 256
  | 5 => 1024
  | _ => 0

/-- The four mode classes (R44). -/
inductive ModeClass where
  | normal
  | ctcA
  | ctcIcr
  | pwm
  deriving DecidableEq, Repr

/-- `modeClass(s)` (R194). -/
def modeClass (p : TimerParams) (t : Timer) : ModeClass :=
  if wgm t = p.modeNormal then .normal
  else if wgm t = p.modeCtcA then .ctcA
  else if wgm t = p.modeCtcIcr then .ctcIcr
  else .pwm

/-- `effectiveTop(s)` (R195). -/
def effectiveTop (p : TimerParams) (t : Timer) : Option Word16 :=
  match modeClass p t with
  | .normal => some 0xFFFF
  | .ctcA => some t.ocra
  | .ctcIcr => some t.icr
  | .pwm => none

/-- `freqHz` for selector `cs` (R196). -/
def freqOf (fBaseHz cs : Nat) : Nat := if divider cs = 0 then 0 else fBaseHz / divider cs

/-- `periodNs` for selector `cs` (R196): a zero divider or a zero frequency is the stopped state. -/
def periodOf (fBaseHz cs : Nat) : Nat :=
  if freqOf fBaseHz cs = 0 then 0 else 1000000000 / freqOf fBaseHz cs

/-- `ClockUpdate(s, now)` (R196 to R199). -/
def clockUpdate (p : TimerParams) (now : Int) (t : Timer) : Timer :=
  let freq := freqOf p.fBaseHz (clockSel t)
  let period := periodOf p.fBaseHz (clockSel t)
  { t with
    freqHz := freq
    periodNs := period
    epoch := if t.periodNs = 0 ∧ 0 < period then now else t.epoch }

end Sys2Proof.Machine
end

