-- ==== Sys2Proof/Machine/Scheduler.lean ====
section
/-! DEFINITION. AlarmScheduler: the next compare, top or overflow event (`43_alarm_scheduler.md` R210 to R221). -/

namespace Sys2Proof.Machine

/-- One `if` of R212: a candidate above the counter takes over when it is strictly below the best so far. -/
def consider (candidate : Bool) (kind : EventKind) (value c : Word16) (best : EventKind × Word16) :
    EventKind × Word16 :=
  if candidate && c.ult value && value.ult best.2 then (kind, value) else best

/-- The event R212 chooses at counter value `c`: Overflow at 0xFFFF, unless one of the four `if`s takes over.
Compare C is tested against its own register (R216). -/
def nextEvent (p : TimerParams) (t : Timer) (c : Word16) : EventKind × Word16 :=
  let m := modeClass p t
  let b0 := (EventKind.overflow, (0xFFFF : Word16))
  let b1 := consider (m = .ctcIcr) .capture t.icr c b0
  let b2 := consider (m = .ctcA || t.enabled p .oca) .compareA t.ocra c b1
  let b3 := consider (t.enabled p .ocb) .compareB t.ocrb c b2
  consider (t.enabled p .occ) .compareC t.ocrc c b3

/-- The alarm R212 arms in a running supported mode; the deadline uses the untruncated tick count (R217). -/
def nextAlarm (p : TimerParams) (now : Int) (t : Timer) : Alarm :=
  let e := elapsedTicks t now
  let c := currentCount t now
  let ev := nextEvent p t c
  let distance : Int := ev.2.toNat - c.toNat
  { kind := ev.1, target := ev.2, deadline := t.epoch + (e + distance) * t.periodNs }

/-- `Rearm(s, now)` (R212): nothing is armed while stopped (R213), nor in a PWM mode, which appends its
diagnostic (R214). -/
def rearm (p : TimerParams) (now : Int) (t : Timer) : Timer :=
  if t.periodNs = 0 then { t with alarm := none }
  else if modeClass p t = .pwm then { addDiag .pwmMode now t with alarm := none }
  else { t with alarm := some (nextAlarm p now t) }

end Sys2Proof.Machine
end

