-- ==== Sys2Proof/Machine/Ops.lean ====
section
/-! DEFINITION. The operations the meanings share: an operation of a machine that is not halted (`41_register_file.md`
R140), reading and writing the registers of the addressed unit (`20_memory.md` R62, R63), the fault on an access
width (`60_exceptions.md` R268), and taking an interrupt (R255, R262) with the return from it (R264). -/

namespace Sys2Proof.Machine

/-- What every operation answers with. -/
abbrev Out := Host.Outcome State Fault Refusal

/-- No operation is enabled once the fault mark is set (R43, R140, R268). -/
def ifRunning (s : State) (k : Out) : Out := if s.halted then .fault .hostAssert else k

/-- The timer unit the operation is for (R48). -/
def selected (s : State) : Option TimerUnit := s.timers[s.sel]?

/-- An operation on the addressed unit. -/
def onTimer (s : State) (k : TimerUnit → Out) : Out :=
  ifRunning s <| match selected s with
    | some u => k u
    | none => .refused .noSuchTimer

/-- The state with new registers in the addressed unit. -/
def putTimer (s : State) (u : TimerUnit) (t : Timer) : State :=
  { s with timers := s.timers.set s.sel { u with regs := t } }

/-- The state with the byte the operation returns (R62), or with none (R63). -/
def answer (s : State) (r : Option Byte) : State := { s with result := r }

/-- `RegRead` (R62): a byte of the addressed unit, and the unit after the read. -/
def busRead (s : State) (value : Int → Timer → Byte) (after : Int → Timer → Timer) : Out :=
  onTimer s fun u =>
    .next (answer (putTimer s u (after s.now u.regs)) (some (value s.now u.regs)))

/-- `RegRead` without a side effect (R69). -/
def plainRead (s : State) (value : Timer → Byte) : Out :=
  onTimer s fun u => .next (answer s (some (value u.regs)))

/-- `RegWrite` (R63): the addressed unit after the write. -/
def busWrite (s : State) (after : TimerParams → Int → Timer → Timer) : Out :=
  onTimer s fun u => .next (answer (putTimer s u (after u.params s.now u.regs)) none)

/-- An operation on the CPU side alone. -/
def onCpu (s : State) (f : Cpu → Cpu) : Out :=
  ifRunning s (.next (answer { s with cpu := f s.cpu } none))

/-- `raise HostAssert(width)` (R67, R268): the fault mark is set and nothing else changes; every later step is a
fault. -/
def raiseHostAssert (s : State) : State := { s with halted := true }

/-- `StackPush8(b)` (R262). -/
def stackPush8 (b : Byte) (stack : List Byte) : List Byte := b :: stack

/-- `PushPC(pc)` (R262): `PC_BYTES` bytes, the least significant first. PRESUMED by the spec (D24, log
entry 10). -/
def pushPc (w : PcWidth) (pc : Pc) (stack : List Byte) : List Byte :=
  (List.range w.bytes).foldl (fun st k => stackPush8 (pcByte pc k) st) stack

/-- The program counter most recently pushed and not yet popped, and the stack without it (R264). -/
def popPc (w : PcWidth) (stack : List Byte) : Option (Pc × List Byte) :=
  if stack.length < w.bytes then none
  else some ((stack.take w.bytes).foldl (fun acc b => (acc <<< 8) ||| b.setWidth 24) 0, stack.drop w.bytes)

/-- The stack pointer, given what it is when nothing is pushed: `StackPush8` stores at it and then decrements
it (R262). The place of the stack is the platform's (R72). -/
def stackPointer (base : Int) (stack : List Byte) : Int := base - stack.length

/-- The byte the pushes have left at an address of the stack, if any (R262). -/
def stackByte (base : Int) (stack : List Byte) (addr : Int) : Option Byte :=
  if addr ≤ stackPointer base stack then none else stack[(addr - stackPointer base stack - 1).toNat]?

/-- Taking an interrupt: steps (1), (2) and (4) of R255, shared by the ordinary and the reset-class dispatch.
Step (3), clearing the request taken, is the caller's. -/
def takeInterrupt (m : MachineParams) (target : Int) (c : Cpu) : Cpu :=
  { c with
    stack := pushPc m.pcWidth c.pc c.stack
    I := false
    pc := toPc m.pcWidth target }

/-- The vector address of bitmap index `i` (R106, R256). -/
def vectorOf (m : MachineParams) (i : Nat) : Int := m.baseVector + i * m.vectorSize

/-- The return from an interrupt (R264): the pushed program counter is restored and the global enable set. -/
def returnFromInterrupt (m : MachineParams) (c : Cpu) : Option Cpu :=
  (popPc m.pcWidth c.stack).map fun r => { c with pc := r.1, stack := r.2, I := true }

end Sys2Proof.Machine
end

