-- ==== Sys2Proof/Machine/Alarm.lean ====
section
/-! DEFINITION. ALARM_FIRE, the alarm-fire handler (`44_interrupt_latch.md` R230 to R244). -/

namespace Sys2Proof.Machine

/-- `didReset` of R234: Overflow, the CTC_A top and the capture top reset the counter (R235 to R237). -/
def resetsCounter (p : TimerParams) (t : Timer) (k : EventKind) : Bool :=
  k = .overflow || (k = .compareA && modeClass p t = .ctcA) || (k = .capture && modeClass p t = .ctcIcr)

/-- Whether the compare evaluation flags a source with register `r` at arrived tick `c` (R238, R239). -/
def compareHit (didReset : Bool) (c r : Word16) : Bool := r = c || (didReset && r = 0)

/-- The handler of R234 up to the last Rearm: the unit and the pending bitmap after an expiry of kind `k`. -/
def raiseFlags (p : TimerParams) (now : Int) (k : EventKind) (t : Timer) (pending : List Bool) :
    Timer × List Bool :=
  let c := currentCount t now
  let didReset := resetsCounter p t k
  let t1 := { t with alarm := none }
  let t2 := if didReset then resetToZero now t1 else t1
  let tp0 := setFlagIf (k = .overflow && t.enabled p .ovf) p .ovf (t2, pending)
  let tp1 := setFlagIf (k = .capture && modeClass p t = .ctcIcr && t.enabled p .icf) p .icf tp0
  let tp2 := setFlagIf (t.enabled p .oca && compareHit didReset c t.ocra) p .oca tp1
  let tp3 := setFlagIf (t.enabled p .ocb && compareHit didReset c t.ocrb) p .ocb tp2
  setFlagIf (t.enabled p .occ && compareHit didReset c t.ocrc) p .occ tp3

/-- ALARM_FIRE (R234). Enabled when the alarm is armed and due (R233). -/
def execAlarmFire (s : State) : Out :=
  onTimer s fun u => match u.regs.alarm with
    | none => .refused .alarmNotDue
    | some a =>
      if s.now < a.deadline then .refused .alarmNotDue
      else
        let tp := raiseFlags u.params s.now a.kind u.regs s.cpu.pending
        .next (answer { putTimer s u (rearm u.params s.now tp.1) with cpu := { s.cpu with pending := tp.2 } } none)

end Sys2Proof.Machine
end

