-- ==== Sys2Proof/Machine/CaptureRegs.lean ====
section
/-! DEFINITION. The capture register halves (`41_register_file.md` R153 to R156): written in capture-top mode only. -/

namespace Sys2Proof.Machine

/-- RD_ICRL (R153). -/
def execRdIcrl (s : State) : Out :=
  busRead s (fun _ t => lowByte t.icr) (fun _ t => { t with tempHigh := highByte t.icr })

/-- The unit after WR_ICRL (R154). -/
def writeIcrl (v : Byte) (p : TimerParams) (now : Int) (t : Timer) : Timer :=
  if modeClass p t = .ctcIcr then rearm p now { t with icr := joinBytes t.tempHigh v } else t

/-- WR_ICRL (R154). -/
def execWrIcrl (v : Byte) (s : State) : Out := busWrite s (writeIcrl v)

/-- RD_ICRH returns the latch (R155). -/
def execRdIcrh (s : State) : Out := plainRead s Timer.tempHigh

/-- WR_ICRH writes the latch, in capture-top mode only (R156). -/
def execWrIcrh (v : Byte) (s : State) : Out :=
  busWrite s fun p _ t => if modeClass p t = .ctcIcr then { t with tempHigh := v } else t

end Sys2Proof.Machine
end

