-- ==== Sys2Proof/Machine/CompareRegs.lean ====
section
/-! DEFINITION. The compare register halves: plain bytes, no latch (`41_register_file.md` R157 to R168). -/

namespace Sys2Proof.Machine

/-- RD_OCRAL (R157). -/
def execRdOcral (s : State) : Out := plainRead s fun t => lowByte t.ocra

/-- WR_OCRAL (R158). -/
def execWrOcral (v : Byte) (s : State) : Out :=
  busWrite s fun p now t => rearm p now { t with ocra := withLow t.ocra v }

/-- RD_OCRAH (R159). -/
def execRdOcrah (s : State) : Out := plainRead s fun t => highByte t.ocra

/-- WR_OCRAH (R160). -/
def execWrOcrah (v : Byte) (s : State) : Out :=
  busWrite s fun p now t => rearm p now { t with ocra := withHigh t.ocra v }

/-- RD_OCRBL (R161). -/
def execRdOcrbl (s : State) : Out := plainRead s fun t => lowByte t.ocrb

/-- WR_OCRBL (R162). -/
def execWrOcrbl (v : Byte) (s : State) : Out :=
  busWrite s fun p now t => rearm p now { t with ocrb := withLow t.ocrb v }

/-- RD_OCRBH (R163). -/
def execRdOcrbh (s : State) : Out := plainRead s fun t => highByte t.ocrb

/-- WR_OCRBH (R164). -/
def execWrOcrbh (v : Byte) (s : State) : Out :=
  busWrite s fun p now t => rearm p now { t with ocrb := withHigh t.ocrb v }

/-- RD_OCRCL (R165). -/
def execRdOcrcl (s : State) : Out := plainRead s fun t => lowByte t.ocrc

/-- WR_OCRCL (R166). -/
def execWrOcrcl (v : Byte) (s : State) : Out :=
  busWrite s fun p now t => rearm p now { t with ocrc := withLow t.ocrc v }

/-- RD_OCRCH (R167). -/
def execRdOcrch (s : State) : Out := plainRead s fun t => highByte t.ocrc

/-- WR_OCRCH (R168). -/
def execWrOcrch (v : Byte) (s : State) : Out :=
  busWrite s fun p now t => rearm p now { t with ocrc := withHigh t.ocrc v }

end Sys2Proof.Machine
end

