-- ==== Sys2Proof/Machine/ControlRegs.lean ====
section
/-! DEFINITION. The control registers and the reserved offset 0x3 (`41_register_file.md` R141 to R148). -/

namespace Sys2Proof.Machine

/-- RD_CRA (R141). -/
def execRdCra (s : State) : Out := plainRead s Timer.cra

/-- The unit after WR_CRA (R142). -/
def writeCra (v : Byte) (p : TimerParams) (now : Int) (t : Timer) : Timer :=
  rearm p now (addDiagIf (asksComparePin v) .comparePin now { t with cra := v })

/-- WR_CRA (R142). -/
def execWrCra (v : Byte) (s : State) : Out := busWrite s (writeCra v)

/-- RD_CRB (R143). -/
def execRdCrb (s : State) : Out := plainRead s Timer.crb

/-- The unit after WR_CRB (R144): the clock is recomputed only when the selector changes. -/
def writeCrb (v : Byte) (p : TimerParams) (now : Int) (t : Timer) : Timer :=
  let t1 := addDiagIf (asksCaptureNoise v) .captureNoise now { t with crb := v }
  let t2 := addDiagIf (asksExtClock v) .extClock now t1
  rearm p now (if csField v = clockSel t then t2 else clockUpdate p now t2)

/-- WR_CRB (R144). -/
def execWrCrb (v : Byte) (s : State) : Out := busWrite s (writeCrb v)

/-- RD_CRC (R145). -/
def execRdCrc (s : State) : Out := plainRead s Timer.crc

/-- The unit after WR_CRC (R146): no Rearm, and no compare is forced. -/
def writeCrc (v : Byte) (p : TimerParams) (now : Int) (t : Timer) : Timer :=
  addDiagIf (asksForceCompare p v) .forceCompare now { t with crc := v }

/-- WR_CRC (R146). -/
def execWrCrc (v : Byte) (s : State) : Out := busWrite s (writeCrc v)

/-- RD_RSV3 reads as zero (R147). -/
def execRdRsv3 (s : State) : Out := plainRead s fun _ => 0

/-- WR_RSV3 changes nothing (R148). -/
def execWrRsv3 (_ : Byte) (s : State) : Out := busWrite s fun _ _ t => t

end Sys2Proof.Machine
end

