-- ==== Sys2Proof/Machine/CounterRegs.lean ====
section
/-! DEFINITION. The counter halves and their latch (`41_register_file.md` R149 to R152). -/

namespace Sys2Proof.Machine

/-- RD_CNTL (R149): the low byte, and the high byte of the same instant into the latch. -/
def execRdCntl (s : State) : Out :=
  busRead s (fun now t => lowByte (currentCount t now))
    (fun now t => { t with tempHigh := highByte (currentCount t now) })

/-- The unit after WR_CNTL (R150): the latch and the byte are committed together. -/
def writeCntl (v : Byte) (p : TimerParams) (now : Int) (t : Timer) : Timer :=
  rearm p now (writeRaw now (joinBytes t.tempHigh v) t)

/-- WR_CNTL (R150). -/
def execWrCntl (v : Byte) (s : State) : Out := busWrite s (writeCntl v)

/-- RD_CNTH returns the latch (R151). -/
def execRdCnth (s : State) : Out := plainRead s Timer.tempHigh

/-- WR_CNTH writes the latch (R152). -/
def execWrCnth (v : Byte) (s : State) : Out := busWrite s fun _ _ t => { t with tempHigh := v }

end Sys2Proof.Machine
end

