-- ==== Sys2Proof/Machine/Interrupt.lean ====
section
/-! DEFINITION. The CPU interrupt controller's decision point and the environment actions that stand for the CPU core
(`60_exceptions.md` R250 to R266). -/

namespace Sys2Proof.Machine

/-- The CPU side after a decision point (R253): the reset-class request first (R257), else, with the global
enable set, the lowest pending index (R254), else nothing. -/
def decisionPoint (m : MachineParams) (c : Cpu) : Cpu :=
  if c.resetReq then { takeInterrupt m m.resetVector c with resetReq := false }
  else if c.I then
    match leastPending c.pending with
    | some i => { takeInterrupt m (vectorOf m i) c with pending := setPending c.pending i false }
    | none => c
  else c

/-- DECISION_POINT (R253). -/
def execDecisionPoint (s : State) : Out := onCpu s (decisionPoint s.params)

/-- ENV_SET_I (R263). -/
def execEnvSetI (b : Bool) (s : State) : Out := onCpu s fun c => { c with I := b }

/-- ENV_RETI (R264); with nothing pushed its precondition fails (U19). -/
def execEnvReti (s : State) : Out :=
  ifRunning s <| match returnFromInterrupt s.params s.cpu with
    | some c => .next (answer { s with cpu := c } none)
    | none => .refused .nothingPushed

/-- ENV_RESET_REQ (R265). -/
def execEnvResetReq (s : State) : Out := onCpu s fun c => { c with resetReq := true }

end Sys2Proof.Machine
end

