-- ==== Sys2Proof/Machine/MaskFlags.lean ====
section
/-! DEFINITION. The interrupt mask and the interrupt flags (`41_register_file.md` R169 to R172). -/

namespace Sys2Proof.Machine

/-- RD_IMSK (R169). -/
def execRdImsk (s : State) : Out := plainRead s Timer.imsk

/-- WR_IMSK (R170): no flag and no line changes. -/
def execWrImsk (v : Byte) (s : State) : Out :=
  busWrite s fun p now t => rearm p now { t with imsk := v }

/-- RD_IFR (R171): reading does not clear. -/
def execRdIfr (s : State) : Out := plainRead s Timer.ifr

/-- WR_IFR (R172): each flag written as 1 is cleared and its line lowered; the bitmap keeps its bits (R252). -/
def execWrIfr (v : Byte) (s : State) : Out := busWrite s fun p _ t => ackFlags p v t

end Sys2Proof.Machine
end

