-- ==== Sys2Proof/Machine/Reset.lean ====
section
/-! DEFINITION. CPU_RESET (`70_reset_and_hazards.md` R290 to R292). -/

namespace Sys2Proof.Machine

/-- A unit after CPU_RESET (R290): everything but the diagnostics is put back; no alarm is armed, so that
`deadline` and `target`, which the spec leaves unspecified, do not exist. -/
def resetTimer (now : Int) (t : Timer) : Timer :=
  { t with
    cra := 0, crb := 0, crc := 0
    tempHigh := 0
    icr := 0, ocra := 0, ocrb := 0, ocrc := 0
    imsk := 0, ifr := 0
    line := ⟨false, false, false, false, false⟩
    freqHz := 0, periodNs := 0
    epoch := now
    alarm := none }

/-- CPU_RESET (R290), for every timer unit; the fault mark, the diagnostics, the program counter and the stack
are not changed (R292). -/
def execCpuReset (s : State) : Out :=
  ifRunning s <| .next <| answer
    { s with
      timers := s.timers.map fun u => { u with regs := resetTimer s.now u.regs }
      cpu := { s.cpu with pending := s.cpu.pending.map fun _ => false, resetReq := false, I := false } }
    none

end Sys2Proof.Machine
end

