-- ==== Sys2Proof/Machine/Dispatch.lean ====
section
/-! DEFINITION. One arm per operation, each one call of its meaning. -/

namespace Sys2Proof.Machine

def exec (i : Instr) (s : State) : Host.Outcome State Fault Refusal :=
  match i with
  | .rdCra => Sys2Proof.Machine.execRdCra s
  | .wrCra v => Sys2Proof.Machine.execWrCra v s
  | .rdCrb => Sys2Proof.Machine.execRdCrb s
  | .wrCrb v => Sys2Proof.Machine.execWrCrb v s
  | .rdCrc => Sys2Proof.Machine.execRdCrc s
  | .wrCrc v => Sys2Proof.Machine.execWrCrc v s
  | .rdRsv3 => Sys2Proof.Machine.execRdRsv3 s
  | .wrRsv3 v => Sys2Proof.Machine.execWrRsv3 v s
  | .rdCntl => Sys2Proof.Machine.execRdCntl s
  | .wrCntl v => Sys2Proof.Machine.execWrCntl v s
  | .rdCnth => Sys2Proof.Machine.execRdCnth s
  | .wrCnth v => Sys2Proof.Machine.execWrCnth v s
  | .rdIcrl => Sys2Proof.Machine.execRdIcrl s
  | .wrIcrl v => Sys2Proof.Machine.execWrIcrl v s
  | .rdIcrh => Sys2Proof.Machine.execRdIcrh s
  | .wrIcrh v => Sys2Proof.Machine.execWrIcrh v s
  | .rdOcral => Sys2Proof.Machine.execRdOcral s
  | .wrOcral v => Sys2Proof.Machine.execWrOcral v s
  | .rdOcrah => Sys2Proof.Machine.execRdOcrah s
  | .wrOcrah v => Sys2Proof.Machine.execWrOcrah v s
  | .rdOcrbl => Sys2Proof.Machine.execRdOcrbl s
  | .wrOcrbl v => Sys2Proof.Machine.execWrOcrbl v s
  | .rdOcrbh => Sys2Proof.Machine.execRdOcrbh s
  | .wrOcrbh v => Sys2Proof.Machine.execWrOcrbh v s
  | .rdOcrcl => Sys2Proof.Machine.execRdOcrcl s
  | .wrOcrcl v => Sys2Proof.Machine.execWrOcrcl v s
  | .rdOcrch => Sys2Proof.Machine.execRdOcrch s
  | .wrOcrch v => Sys2Proof.Machine.execWrOcrch v s
  | .rdImsk => Sys2Proof.Machine.execRdImsk s
  | .wrImsk v => Sys2Proof.Machine.execWrImsk v s
  | .rdIfr => Sys2Proof.Machine.execRdIfr s
  | .wrIfr v => Sys2Proof.Machine.execWrIfr v s
  | .alarmFire => Sys2Proof.Machine.execAlarmFire s
  | .decisionPoint => Sys2Proof.Machine.execDecisionPoint s
  | .cpuReset => Sys2Proof.Machine.execCpuReset s
  | .envSetI b => Sys2Proof.Machine.execEnvSetI b s
  | .envReti => Sys2Proof.Machine.execEnvReti s
  | .envResetReq => Sys2Proof.Machine.execEnvResetReq s

end Sys2Proof.Machine
end

