-- ==== Sys2Proof/Machine/Fetch.lean ====
section
/-! DEFINITION. What happens next: the total order of operations (`20_memory.md` R75), the alarm's place in it (R76,
`44_interrupt_latch.md` R233), and how a presented transaction becomes an operation (R60, R67). -/

namespace Sys2Proof.Machine

/-- The time at which an armed alarm expires (R76): its deadline, or, when the Rearm that armed it came after
the deadline, the time of that Rearm, which then is the time of the latest operation (R219, log entry 4). -/
def fireTime (now : Int) (a : Alarm) : Int := max a.deadline now

/-- The armed alarms, as pairs of unit number and expiry time; the first unit has number `k`. -/
def armedAlarms (now : Int) : Nat → List TimerUnit → List (Nat × Int)
  | _, [] => []
  | k, u :: us => match u.regs.alarm with
    | some a => (k, fireTime now a) :: armedAlarms now (k + 1) us
    | none => armedAlarms now (k + 1) us

/-- The first pair with the least time (R76). Where two units expire at one time the lower number goes first:
either order gives the same state (R277, log entry 6). -/
def earliest : List (Nat × Int) → Option (Nat × Int)
  | [] => none
  | x :: xs => match earliest xs with
    | none => some x
    | some y => if y.2 < x.2 then some y else some x

/-- The alarm that expires next. -/
def nextExpiry (s : State) : Option (Nat × Int) := earliest (armedAlarms s.now 0 s.timers)

/-- The transaction is the ALARM_FIRE of an armed alarm at its own expiry time (R233): it is that expiry, not
an operation that comes after it (log entry 21). -/
def announcesExpiry (s : State) (t : Transaction) : Bool :=
  match decode t.bytes, s.timers[t.timer]? with
  | .ok (.alarmFire, _), some u => match u.regs.alarm with
    | some a => t.now = fireTime s.now a
    | none => false
  | _, _ => false

/-- The operation that happens next. -/
inductive NextOperation where
  /-- the alarm of a unit expires -/
  | expiry (unit : Nat) (time : Int)
  /-- the presented transaction -/
  | transaction (t : Transaction) (rest : List Transaction)
  /-- nothing -/
  | nothing

/-- An alarm due at or before the time of the next transaction expires before it (R76). With no transaction
left, the next alarm expires (log entry 5). -/
def nextOperation (s : State) : NextOperation :=
  match s.inputs, nextExpiry s with
  | [], none => .nothing
  | [], some x => .expiry x.1 x.2
  | t :: rest, none => .transaction t rest
  | t :: rest, some x =>
    if x.2 < t.now ∨ (x.2 = t.now ∧ announcesExpiry s t = false) then .expiry x.1 x.2
    else .transaction t rest

/-- The state in which an expiry of unit `k` at time `time` is performed. -/
def atExpiry (s : State) (k : Nat) (time : Int) : State := { s with now := time, sel := k }

/-- The state in which a transaction is performed: it is taken from the queue, its time and unit are the
present ones, and the program counter is where the CPU core has brought it (R266). -/
def accept (s : State) (t : Transaction) (rest : List Transaction) : State :=
  { s with
    now := t.now
    sel := t.timer
    inputs := rest
    cpu := match t.pcIn with
      | some pc => { s.cpu with pc := toPc s.params.pcWidth pc.toNat }
      | none => s.cpu }

/-- What a presented transaction is. -/
inductive Fetched where
  | run (i : Instr)
  /-- a BUS transaction of a width other than one byte (R67) -/
  | widthViolation
  | refuse (r : Refusal)

/-- What the transaction is (R60, R67, R101). A BUS transaction of another width than one byte is a violation
whatever its offset; one for a unit that does not exist reaches no window. -/
def fetch (s : State) (t : Transaction) : Fetched :=
  if t.now < s.now then .refuse .timeDecreases
  else if formatOf t.bytes = some .bus ∧ t.width ≠ 1 then
    if t.timer < s.timers.length then .widthViolation else .refuse .noSuchTimer
  else match decode t.bytes with
    | .ok (i, _) => .run i
    | .error e => .refuse (.noSuchOperation e)

/-- The transaction that stands for a table word: for the unit last addressed, one byte wide, at the present
time. -/
def tableTransaction (s : State) (nbits w : Nat) : Transaction where
  now := s.now
  timer := s.sel
  width := 1
  bytes := tableBytes nbits w
  pcIn := none

end Sys2Proof.Machine
end

