-- ==== Sys2Proof/Machine/Step.lean ====
section
/-! DEFINITION. One step of the machine: one operation of the total order (`20_memory.md` R75, R76). -/

namespace Sys2Proof.Machine

/-- One operation: the expiry of a due alarm, or the next transaction. A machine whose fault mark is set does
nothing more (R43). -/
def step (s : State) : Host.Outcome State Fault Refusal :=
  ifRunning s <| match nextOperation s with
    | .nothing => .refused .noOperation
    | .expiry k time => exec .alarmFire (atExpiry s k time)
    | .transaction t rest => match fetch s t with
      | .run i => exec i (accept s t rest)
      | .widthViolation => .next (raiseHostAssert (answer (accept s t rest) none))
      | .refuse r => .refused r

/-- The state with a table word presented as the very next transaction (log entry 2). -/
def State.withFetchWord (s : State) (nbits w : Nat) : State :=
  { s with inputs := tableTransaction s nbits w :: s.inputs }

end Sys2Proof.Machine
end

