-- ==== Sys2Proof/Safety.lean ====
section
/-! DEFINITION. The terms in which claims are stated: what an operation may change, the candidates of the scheduler
(`43_alarm_scheduler.md` R211), the sources an expiry raises (`44_interrupt_latch.md` R234), and the invariant of
the machine (`10_state.md` R38). -/

namespace Sys2Proof.Machine

/-- The machine is not halted and the operation is for the existing unit `u` (R140). -/
def Addresses (s : State) (u : TimerUnit) : Prop :=
  s.halted = false ∧ s.timers[s.sel]? = some u

/-- The state that differs from `s` in the registers of the addressed unit and in the byte returned, and in
nothing else. -/
def unitChanged (s : State) (u : TimerUnit) (t : Timer) (r : Option Byte) : State :=
  { s with timers := s.timers.set s.sel { u with regs := t }, result := r }

/-- The state that differs from `s` in the byte returned and in nothing else. -/
def onlyReturns (s : State) (r : Option Byte) : State := { s with result := r }

/-- The state that differs from `s` in the CPU side, in returning no byte, and in nothing else. -/
def cpuChanged (s : State) (c : Cpu) : State := { s with cpu := c, result := none }

/-- The unit of a state under a number; every claim about "every unit" is about every number. -/
def unitAt (s : State) (k : Nat) : Option TimerUnit := s.timers[k]?

/-- The bytes of a program counter in the order in which the stack holds them after a push: the least
significant is stored first, so the most significant is the last stored (R262). -/
def pcBytes (w : PcWidth) (pc : Pc) : List Byte :=
  ((List.range w.bytes).map fun k => BitVec.ofNat 8 (pc.toNat / 2 ^ (8 * k))).reverse

/-- The program counter fits the machine's width (R42). -/
def fitsPc (w : PcWidth) (pc : Pc) : Prop := pc.toNat < 2 ^ (8 * w.bytes)

/-- The table of candidate events of R211, at counter value `c`. -/
def Candidate (p : TimerParams) (t : Timer) (c : Word16) (k : EventKind) (value : Word16) : Prop :=
  match k with
  | .overflow => modeClass p t ≠ .pwm ∧ value = 0xFFFF
  | .capture => modeClass p t = .ctcIcr ∧ value = t.icr ∧ c.toNat < value.toNat
  | .compareA => (modeClass p t = .ctcA ∨ t.imsk.getLsbD (bitIndex p .oca) = true) ∧
      value = t.ocra ∧ c.toNat < value.toNat
  | .compareB => t.imsk.getLsbD (bitIndex p .ocb) = true ∧ value = t.ocrb ∧ c.toNat < value.toNat
  | .compareC => t.imsk.getLsbD (bitIndex p .occ) = true ∧ value = t.ocrc ∧ c.toNat < value.toNat

/-- The priority column of R211: 1 is the highest. -/
def priority : EventKind → Nat
  | .overflow => 1
  | .capture => 2
  | .compareA => 3
  | .compareB => 4
  | .compareC => 5

/-- The expiry of kind `k` resets the counter (R235 to R237). -/
def Resets (p : TimerParams) (t : Timer) (k : EventKind) : Prop :=
  k = .overflow ∨ (k = .compareA ∧ modeClass p t = .ctcA) ∨ (k = .capture ∧ modeClass p t = .ctcIcr)

/-- The expiry of kind `k`, arriving at counter value `c`, sets the flag of source `x`: the source is enabled and
R235 (overflow), R237 (capture), or R238 and R239 (compare) name it. -/
def Raises (p : TimerParams) (t : Timer) (k : EventKind) (c : Word16) (x : Source) : Prop :=
  t.imsk.getLsbD (bitIndex p x) = true ∧
  match x with
  | .ovf => k = .overflow
  | .icf => k = .capture ∧ modeClass p t = .ctcIcr
  | .oca => t.ocra = c ∨ (Resets p t k ∧ t.ocra = 0)
  | .ocb => t.ocrb = c ∨ (Resets p t k ∧ t.ocrb = 0)
  | .occ => t.ocrc = c ∨ (Resets p t k ∧ t.ocrc = 0)

/-- Two timers agree in the fields ALARM_FIRE never writes (R234: it writes `epoch`, `ifr`, `line`, the alarm, and
through Rearm `diag`). -/
def SameRegisters (t t' : Timer) : Prop :=
  t'.cra = t.cra ∧ t'.crb = t.crb ∧ t'.crc = t.crc ∧ t'.tempHigh = t.tempHigh ∧ t'.icr = t.icr ∧
  t'.ocra = t.ocra ∧ t'.ocrb = t.ocrb ∧ t'.ocrc = t.ocrc ∧ t'.imsk = t.imsk ∧
  t'.freqHz = t.freqHz ∧ t'.periodNs = t.periodNs

/-- The invariant of one timer unit at time `now` (R38 and the rules it names). -/
structure TimerInv (p : TimerParams) (now : Int) (t : Timer) : Prop where
  /-- the bit positions are distinct (D1); no operation changes a parameter (R46) -/
  bits_distinct : p.bitPositions.Nodup
  /-- R38.6, R129 -/
  epoch_le : t.epoch ≤ now
  /-- R196: frequency and period are those of the selector held in Control B (R38.1) -/
  freq_eq : t.freqHz = freqOf p.fBaseHz (clockSel t)
  period_eq : t.periodNs = periodOf p.fBaseHz (clockSel t)
  /-- R38.2, and its converse R220 -/
  armed_iff : t.armed = true ↔ 0 < t.periodNs ∧ modeClass p t ≠ .pwm
  /-- R38.3: the alarm is the one Rearm computes from the registers as they are, at some time not in the
  future -/
  alarm_current : ∀ a, t.alarm = some a → ∃ τ, t.epoch ≤ τ ∧ τ ≤ now ∧ a = nextAlarm p τ t
  /-- R243: when the alarm expires, the counter stands at its target -/
  alarm_arrives : ∀ a, t.alarm = some a → currentCount t (fireTime now a) = a.target
  /-- R38.4, R242 -/
  line_eq_flag : ∀ x, t.line.get x = t.ifr.getLsbD (bitIndex p x)
  /-- R38.5, R31 -/
  ifr_sources_only : ∀ j, (∀ x, bitIndex p x ≠ j) → t.ifr.getLsbD j = false

/-- The invariant of the machine: every unit's (R38), and the shapes of the CPU side (R39, R42, R262). -/
structure MachineInv (s : State) : Prop where
  units : ∀ u ∈ s.timers, TimerInv u.params s.now u.regs
  pending_length : s.cpu.pending.length = s.params.nSrc
  pc_fits : fitsPc s.params.pcWidth s.cpu.pc
  stack_whole : s.cpu.stack.length % s.params.pcWidth.bytes = 0

end Sys2Proof.Machine
end

