-- ==== Sys2Proof/Certificates/Slice0/Obligations.lean ====
section
/-! DEFINITION. The statements for the provers. Each docstring names the rule of spec/ the statement formalises, or the
decision of `92_eei_decisions.md` it rests on. -/

open Sys2Proof Sys2Proof.Machine

/-! ### Encoding -/

/-- Derived from R99 and R100: every operation, with every operand the encoding admits, is read back from its
bytes, whatever bytes follow. The layout in bytes is the model's (log entry 3). -/
def Obligations.DecodeInvertsEncode : Prop :=
  ∀ (i : Instr) (rest : List Byte), decode (encode i ++ rest) = .ok (i, rest)

/-- Derived from R99 to R101: bytes that are read as an operation are that operation's bytes, so that no two
words name one operation. The layout in bytes is the model's (log entry 3). -/
def Obligations.EncodeInvertsDecode : Prop :=
  ∀ (bytes rest : List Byte) (i : Instr), decode bytes = .ok (i, rest) → bytes = encode i ++ rest

/-- R100: the operation map, row by row. A write's word asks for a data byte, ENV_SET_I's for a bit. -/
def Obligations.OperationMapDecodes : Prop :=
  (List.map shapeOf
    [0x00, 0x01, 0x02, 0x03, 0x04, 0x05, 0x06, 0x07, 0x08, 0x09, 0x0a, 0x0b, 0x0c, 0x0d, 0x20, 0x40] =
    List.map (fun i => .ok (.plain i))
    [.rdCra, .rdCrb, .rdCrc, .rdRsv3, .rdCntl, .rdCnth, .rdIcrl, .rdIcrh, .rdOcral, .rdOcrah, .rdOcrbl,
      .rdOcrbh, .rdOcrcl, .rdOcrch, .rdImsk, .rdIfr]) ∧
  (List.map shapeOf
    [0x10, 0x11, 0x12, 0x13, 0x14, 0x15, 0x16, 0x17, 0x18, 0x19, 0x1a, 0x1b, 0x1c, 0x1d, 0x30, 0x50] =
    List.map (fun f => .ok (.withByte f))
    [.wrCra, .wrCrb, .wrCrc, .wrRsv3, .wrCntl, .wrCnth, .wrIcrl, .wrIcrh, .wrOcral, .wrOcrah, .wrOcrbl,
      .wrOcrbh, .wrOcrcl, .wrOcrch, .wrImsk, .wrIfr]) ∧
  (List.map shapeOf [0x60, 0x61, 0x62, 0x64, 0x65] =
    List.map (fun i => .ok (.plain i)) [.alarmFire, .decisionPoint, .cpuReset, .envReti, .envResetReq]) ∧
  shapeOf 0x63 = .ok (.withBit .envSetI)

/-- Derived from R101, the spec's decision D16 and R67 (and log entry 15): 0x03 and 0x13 are the
reserved operations; the listed words name no operation, whatever follows them;
a BUS transaction of another width than one byte is a violation whatever its word. -/
def Obligations.ReservedWordsNameNoOperation : Prop :=
  (∀ rest, decode (0x03 :: rest) = .ok (.rdRsv3, rest)) ∧
  (∀ v rest, decode (0x13 :: v :: rest) = .ok (.wrRsv3 v, rest)) ∧
  (∀ (t : Byte) (rest : List Byte),
    t.toNat = 0x0e ∨ t.toNat = 0x0f ∨ t.toNat = 0x1e ∨ t.toNat = 0x1f ∨
      (0x21 ≤ t.toNat ∧ t.toNat ≤ 0x2f) ∨ (0x31 ≤ t.toNat ∧ t.toNat ≤ 0x3f) ∨
      (0x41 ≤ t.toNat ∧ t.toNat ≤ 0x4f) ∨ (0x51 ≤ t.toNat ∧ t.toNat ≤ 0x5f) ∨
      (0x66 ≤ t.toNat ∧ t.toNat ≤ 0x7f) →
    ∃ e, decode (t :: rest) = .error e) ∧
  (∀ (s : State) (x : Transaction) (t : Byte) (rest : List Byte),
    x.bytes = t :: rest → t.toNat < 0x60 → x.width ≠ 1 → s.now ≤ x.now → x.timer < s.timers.length →
    fetch s x = .widthViolation)

/-! ### CounterModel -/

/-- R122, R124: the counter is the number of whole ticks since the epoch, modulo 65536; 0 while stopped. -/
def Obligations.CounterIsElapsedTicksModulo : Prop :=
  ∀ (t : Timer) (now : Int),
    (t.periodNs = 0 → elapsedTicks t now = 0 ∧ currentCount t now = 0) ∧
    (0 < t.periodNs → elapsedTicks t now = (now - t.epoch) / (t.periodNs : Int) ∧
      ((currentCount t now).toNat : Int) = (now - t.epoch) / (t.periodNs : Int) % 65536)

/-- Derived from R122, R124 and R128, whose clause about every phase of a tick the spec derives: the lazy-count
law. -/
def Obligations.LazyCountLaw : Prop :=
  ∀ (t : Timer) (k r : Nat), r < t.periodNs →
    (currentCount t (t.epoch + k * t.periodNs + r)).toNat = k % 65536

/-- Derived from R122 and R124 to R126: a counter reset counts up from 0, a counter write is read back
exactly for one full tick from the moment of the write, the next
increment comes exactly one period after it, nothing but the epoch is written, and a write of 0, or any write
while stopped, is `resetToZero`. -/
def Obligations.CounterWriteReadsBack : Prop :=
  ∀ (t : Timer) (now : Int) (value : Word16),
    resetToZero now t = { t with epoch := now } ∧ currentCount (resetToZero now t) now = 0 ∧
    (∀ k r : Nat, r < t.periodNs → (currentCount (resetToZero now t) (now + k * t.periodNs + r)).toNat = k % 65536) ∧
    writeRaw now value t = { t with epoch := now - value.toNat * t.periodNs } ∧
    (0 < t.periodNs → (∀ d : Nat, d < t.periodNs → currentCount (writeRaw now value t) (now + d) = value) ∧
      currentCount (writeRaw now value t) (now + t.periodNs) = value + 1) ∧
    writeRaw now 0 t = resetToZero now t ∧
    (t.periodNs = 0 → writeRaw now value t = resetToZero now t)

/-! ### ModeController -/

/-- Derived from R193 and R194 with the spec's decision D2 (log entry 11): the mode number is bits 4:3 of Control B
over bits 1:0 of Control A; the class is NORMAL, CTC_A or CTC_ICR at the number `MODE_NORMAL`, `MODE_CTC_A` or
`MODE_CTC_ICR`, whatever three distinct numbers they are, and PWM at every other; with the decided numbers these are
0, 4 and 12. -/
def Obligations.ModeClassFollowsControlBits : Prop :=
  ∀ (p : TimerParams) (t : Timer),
    (wgm t).toNat = 4 * (t.crb.toNat / 8 % 4) + t.cra.toNat % 4 ∧
    (p.modeNumbers.Nodup →
      (modeClass p t = .normal ↔ wgm t = p.modeNormal) ∧ (modeClass p t = .ctcA ↔ wgm t = p.modeCtcA) ∧
      (modeClass p t = .ctcIcr ↔ wgm t = p.modeCtcIcr) ∧ (modeClass p t = .pwm ↔ wgm t ∉ p.modeNumbers)) ∧
    (p.modeNumbers = [0, 4, 12] →
      (modeClass p t = .normal ↔ (wgm t).toNat = 0) ∧ (modeClass p t = .ctcA ↔ (wgm t).toNat = 4) ∧
      (modeClass p t = .ctcIcr ↔ (wgm t).toNat = 12))

/-- Derived from R195 (in a PWM mode the spec's decision D10): in a supported mode the alarm Rearm arms never
lies above the mode's top unless the counter is already at or above it. -/
def Obligations.AlarmNotAboveTheTop : Prop :=
  ∀ (p : TimerParams) (t : Timer) (now : Int) (top : Word16), 0 < t.periodNs → effectiveTop p t = some top →
    (modeClass p t = .normal → top = 0xFFFF) ∧ (modeClass p t = .ctcA → top = t.ocra) ∧
    (modeClass p t = .ctcIcr → top = t.icr) ∧ modeClass p t ≠ .pwm ∧
    ∃ a, (rearm p now t).alarm = some a ∧
      ((currentCount t now).toNat < top.toNat → a.target.toNat ≤ top.toNat)

/-- Derived from R196 to R199 with the spec's decisions D3, D4, D20 and D36: recomputing the clock gives the
two floor divisions, a selector with no divider or a zero quotient stops the timer, the epoch moves to `now`
when a stopped timer starts and is kept otherwise, and nothing else changes. -/
def Obligations.ClockUpdateDerivesPeriod : Prop :=
  ∀ (p : TimerParams) (now : Int) (t : Timer),
    ∃ freq period epoch,
      clockUpdate p now t = { t with freqHz := freq, periodNs := period, epoch := epoch } ∧
      (∀ d, (t.crb.toNat % 8, d) ∈ [(1, 1), (2, 8), (3, 64), (4, 256), (5, 1024)] → freq = p.fBaseHz / d) ∧
      (t.crb.toNat % 8 = 0 ∨ 6 ≤ t.crb.toNat % 8 → freq = 0) ∧
      (freq = 0 → period = 0) ∧ (0 < freq → period = 1000000000 / freq) ∧
      (t.periodNs = 0 ∧ 0 < period → epoch = now) ∧ (¬(t.periodNs = 0 ∧ 0 < period) → epoch = t.epoch)

/-! ### RegisterFile: reads -/

/-- R141, R143, R145, R151, R155: a read of a control register returns it, a read of CNTH or ICRH returns the
latch, and nothing else changes. -/
def Obligations.ControlAndLatchReads : Prop :=
  ∀ (s : State) (u : TimerUnit), Addresses s u →
    (shapeOf 0x00 = .ok (.plain .rdCra) ∧ exec .rdCra s = .next (onlyReturns s (some u.regs.cra))) ∧
    (shapeOf 0x01 = .ok (.plain .rdCrb) ∧ exec .rdCrb s = .next (onlyReturns s (some u.regs.crb))) ∧
    (shapeOf 0x02 = .ok (.plain .rdCrc) ∧ exec .rdCrc s = .next (onlyReturns s (some u.regs.crc))) ∧
    (shapeOf 0x05 = .ok (.plain .rdCnth) ∧ exec .rdCnth s = .next (onlyReturns s (some u.regs.tempHigh))) ∧
    (shapeOf 0x07 = .ok (.plain .rdIcrh) ∧ exec .rdIcrh s = .next (onlyReturns s (some u.regs.tempHigh)))

/-- R157, R159, R161, R163, R165, R167, R169, R171: a read of a compare half, of the mask or of the flags
returns the stored byte and changes nothing: no latch is read or written, and no flag is cleared. -/
def Obligations.CompareMaskAndFlagReads : Prop :=
  ∀ (s : State) (u : TimerUnit), Addresses s u →
    (shapeOf 0x08 = .ok (.plain .rdOcral) ∧
      exec .rdOcral s = .next (onlyReturns s (some (BitVec.ofNat 8 (u.regs.ocra.toNat % 256))))) ∧
    (shapeOf 0x09 = .ok (.plain .rdOcrah) ∧
      exec .rdOcrah s = .next (onlyReturns s (some (BitVec.ofNat 8 (u.regs.ocra.toNat / 256))))) ∧
    (shapeOf 0x0a = .ok (.plain .rdOcrbl) ∧
      exec .rdOcrbl s = .next (onlyReturns s (some (BitVec.ofNat 8 (u.regs.ocrb.toNat % 256))))) ∧
    (shapeOf 0x0b = .ok (.plain .rdOcrbh) ∧
      exec .rdOcrbh s = .next (onlyReturns s (some (BitVec.ofNat 8 (u.regs.ocrb.toNat / 256))))) ∧
    (shapeOf 0x0c = .ok (.plain .rdOcrcl) ∧
      exec .rdOcrcl s = .next (onlyReturns s (some (BitVec.ofNat 8 (u.regs.ocrc.toNat % 256))))) ∧
    (shapeOf 0x0d = .ok (.plain .rdOcrch) ∧
      exec .rdOcrch s = .next (onlyReturns s (some (BitVec.ofNat 8 (u.regs.ocrc.toNat / 256))))) ∧
    (shapeOf 0x20 = .ok (.plain .rdImsk) ∧ exec .rdImsk s = .next (onlyReturns s (some u.regs.imsk))) ∧
    (shapeOf 0x40 = .ok (.plain .rdIfr) ∧ exec .rdIfr s = .next (onlyReturns s (some u.regs.ifr)))

/-- R149, R153: a read of CNTL or ICRL returns the low byte and puts the high byte of the same value into the
latch; nothing else changes. -/
def Obligations.LowByteReadsLatchTheHighByte : Prop :=
  ∀ (s : State) (u : TimerUnit), Addresses s u →
    (shapeOf 0x04 = .ok (.plain .rdCntl) ∧
      exec .rdCntl s = .next (unitChanged s u
        { u.regs with tempHigh := BitVec.ofNat 8 ((currentCount u.regs s.now).toNat / 256) }
        (some (BitVec.ofNat 8 ((currentCount u.regs s.now).toNat % 256))))) ∧
    (shapeOf 0x06 = .ok (.plain .rdIcrl) ∧
      exec .rdIcrl s = .next (unitChanged s u
        { u.regs with tempHigh := BitVec.ofNat 8 (u.regs.icr.toNat / 256) }
        (some (BitVec.ofNat 8 (u.regs.icr.toNat % 256)))))

/-- Derived from the spec's decision D16: the reserved offset reads as zero and ignores writes; nothing else
changes. -/
def Obligations.ReservedOffsetIsInert : Prop :=
  ∀ (s : State) (u : TimerUnit) (v : Byte), Addresses s u →
    exec .rdRsv3 s = .next (onlyReturns s (some 0)) ∧ exec (.wrRsv3 v) s = .next (onlyReturns s none)

/-! ### RegisterFile: writes -/

/-- R142: WR_CRA stores the byte, appends the compare-pin diagnostic when a bit of 7:2 is set, and ends with
Rearm; nothing else changes. -/
def Obligations.ControlAWrite : Prop :=
  ∀ (s : State) (u : TimerUnit) (v : Byte), Addresses s u →
    shapeOf 0x10 = .ok (.withByte .wrCra) ∧
    exec (.wrCra v) s = .next (unitChanged s u
      (rearm u.params s.now { u.regs with
        cra := v
        diag := u.regs.diag ++ if 4 ≤ v.toNat then [⟨.comparePin, s.now⟩] else [] }) none)

/-- Derived from R144 and, for the diagnostics' emission points, the spec's decision D15: WR_CRB stores the
byte, appends the diagnostics its bits ask for, recomputes the clock exactly when the selector changes, and ends
with Rearm; nothing else changes. -/
def Obligations.ControlBWrite : Prop :=
  ∀ (s : State) (u : TimerUnit) (v : Byte), Addresses s u →
    let stored : Timer := { u.regs with
      crb := v
      diag := u.regs.diag ++ (if 32 ≤ v.toNat then [⟨.captureNoise, s.now⟩] else []) ++
        (if 6 ≤ v.toNat % 8 then [⟨.extClock, s.now⟩] else []) }
    (v.toNat % 8 = u.regs.crb.toNat % 8 →
      exec (.wrCrb v) s = .next (unitChanged s u (rearm u.params s.now stored) none)) ∧
    (v.toNat % 8 ≠ u.regs.crb.toNat % 8 →
      exec (.wrCrb v) s = .next (unitChanged s u (rearm u.params s.now (clockUpdate u.params s.now stored)) none))

/-- Derived from the spec's decisions D12 and D15: WR_CRC stores the byte and appends the force-compare
diagnostic when a bit of `CRC_FORCE_MASK` is set, which with the decided mask is a bit of 7:5; no Rearm runs, no flag
is set, and nothing else changes. -/
def Obligations.ControlCWrite : Prop :=
  ∀ (s : State) (u : TimerUnit) (v : Byte), Addresses s u →
    exec (.wrCrc v) s = .next (unitChanged s u
      { u.regs with
        crc := v
        diag := u.regs.diag ++
          if v &&& u.params.crcForceMask ≠ 0 then [⟨.forceCompare, s.now⟩] else [] } none) ∧
    (u.params.crcForceMask = 0xE0 → (v &&& u.params.crcForceMask ≠ 0 ↔ 32 ≤ v.toNat))

/-- R150: WR_CNTL commits the latch and the byte as one 16-bit value, by moving the epoch, and ends with Rearm;
nothing else changes. -/
def Obligations.CounterLowWriteCommitsThePair : Prop :=
  ∀ (s : State) (u : TimerUnit) (v : Byte), Addresses s u →
    shapeOf 0x14 = .ok (.withByte .wrCntl) ∧
    exec (.wrCntl v) s = .next (unitChanged s u
      (rearm u.params s.now { u.regs with
        epoch := s.now - (u.regs.tempHigh.toNat * 256 + v.toNat : Nat) * u.regs.periodNs }) none)

/-- R154: in capture-top mode WR_ICRL commits the latch and the byte to the capture register and ends with
Rearm; in every other mode it changes nothing. -/
def Obligations.CaptureLowWriteOnlyInCaptureTopMode : Prop :=
  ∀ (s : State) (u : TimerUnit) (v : Byte), Addresses s u →
    shapeOf 0x16 = .ok (.withByte .wrIcrl) ∧
    (modeClass u.params u.regs = .ctcIcr → exec (.wrIcrl v) s = .next (unitChanged s u
      (rearm u.params s.now { u.regs with icr := BitVec.ofNat 16 (u.regs.tempHigh.toNat * 256 + v.toNat) }) none)) ∧
    (modeClass u.params u.regs ≠ .ctcIcr → exec (.wrIcrl v) s = .next (onlyReturns s none))

/-- Derived from the spec's decisions D12 and D14: WR_CNTH writes the latch and nothing else; WR_ICRH does so in
capture-top mode and changes nothing in every other mode. -/
def Obligations.HighByteWritesStageTheLatch : Prop :=
  ∀ (s : State) (u : TimerUnit) (v : Byte), Addresses s u →
    exec (.wrCnth v) s = .next (unitChanged s u { u.regs with tempHigh := v } none) ∧
    (modeClass u.params u.regs = .ctcIcr →
      exec (.wrIcrh v) s = .next (unitChanged s u { u.regs with tempHigh := v } none)) ∧
    (modeClass u.params u.regs ≠ .ctcIcr → exec (.wrIcrh v) s = .next (onlyReturns s none))

/-- R158, R160, R162, R164, R166, R168: a write of a compare half replaces that half at once and ends with
Rearm; the other half, the latch and everything else stay. -/
def Obligations.CompareHalfWrites : Prop :=
  ∀ (s : State) (u : TimerUnit) (v : Byte), Addresses s u →
    (shapeOf 0x18 = .ok (.withByte .wrOcral) ∧ exec (.wrOcral v) s = .next (unitChanged s u (rearm u.params s.now
      { u.regs with ocra := BitVec.ofNat 16 (u.regs.ocra.toNat / 256 * 256 + v.toNat) }) none)) ∧
    (shapeOf 0x19 = .ok (.withByte .wrOcrah) ∧ exec (.wrOcrah v) s = .next (unitChanged s u (rearm u.params s.now
      { u.regs with ocra := BitVec.ofNat 16 (v.toNat * 256 + u.regs.ocra.toNat % 256) }) none)) ∧
    (shapeOf 0x1a = .ok (.withByte .wrOcrbl) ∧ exec (.wrOcrbl v) s = .next (unitChanged s u (rearm u.params s.now
      { u.regs with ocrb := BitVec.ofNat 16 (u.regs.ocrb.toNat / 256 * 256 + v.toNat) }) none)) ∧
    (shapeOf 0x1b = .ok (.withByte .wrOcrbh) ∧ exec (.wrOcrbh v) s = .next (unitChanged s u (rearm u.params s.now
      { u.regs with ocrb := BitVec.ofNat 16 (v.toNat * 256 + u.regs.ocrb.toNat % 256) }) none)) ∧
    (shapeOf 0x1c = .ok (.withByte .wrOcrcl) ∧ exec (.wrOcrcl v) s = .next (unitChanged s u (rearm u.params s.now
      { u.regs with ocrc := BitVec.ofNat 16 (u.regs.ocrc.toNat / 256 * 256 + v.toNat) }) none)) ∧
    (shapeOf 0x1d = .ok (.withByte .wrOcrch) ∧ exec (.wrOcrch v) s = .next (unitChanged s u (rearm u.params s.now
      { u.regs with ocrc := BitVec.ofNat 16 (v.toNat * 256 + u.regs.ocrc.toNat % 256) }) none))

/-- Derived from R170 and, for the untouched flags and lines, the spec's decision D17: WR_IMSK stores all eight
bits and ends with Rearm; no flag, no line and nothing else changes. -/
def Obligations.MaskWrite : Prop :=
  ∀ (s : State) (u : TimerUnit) (v : Byte), Addresses s u →
    exec (.wrImsk v) s = .next (unitChanged s u (rearm u.params s.now { u.regs with imsk := v }) none) ∧
    (rearm u.params s.now { u.regs with imsk := v }).ifr = u.regs.ifr ∧
    (rearm u.params s.now { u.regs with imsk := v }).line = u.regs.line

/-- R172: WR_IFR clears exactly the source bits written as 1, lowers the line of each flag it clears, and changes
nothing else: no bit of no source, no other line, no pending bit, no alarm. (The five bit positions are
distinct: D1.) -/
def Obligations.FlagsWriteOneToClear : Prop :=
  ∀ (s : State) (u : TimerUnit) (v : Byte), Addresses s u →
    u.params.bitPositions.Nodup →
    shapeOf 0x50 = .ok (.withByte .wrIfr) ∧
    ∃ t' : Timer, exec (.wrIfr v) s = .next (unitChanged s u t' none) ∧
      t' = { u.regs with ifr := t'.ifr, line := t'.line } ∧
      (∀ x : Source, t'.ifr.getLsbD (bitIndex u.params x) =
        (u.regs.ifr.getLsbD (bitIndex u.params x) && !v.getLsbD (bitIndex u.params x))) ∧
      (∀ j, (∀ x : Source, bitIndex u.params x ≠ j) → t'.ifr.getLsbD j = u.regs.ifr.getLsbD j) ∧
      (∀ x : Source, t'.line.get x =
        (u.regs.line.get x && !(v.getLsbD (bitIndex u.params x) && u.regs.ifr.getLsbD (bitIndex u.params x))))

/-! ### AlarmScheduler -/

/-- R212: Rearm. Stopped: nothing is armed. PWM: nothing is armed and one diagnostic is appended. Otherwise the
candidate of R211 with the least value is armed, the one of highest priority among equal values, with the
deadline of the untruncated tick count. Nothing but the alarm, and in the PWM case the diagnostics, changes. -/
def Obligations.RearmArmsTheNextEvent : Prop :=
  ∀ (p : TimerParams) (t : Timer) (now : Int),
    (t.periodNs = 0 → rearm p now t = { t with alarm := none }) ∧
    (0 < t.periodNs → modeClass p t = .pwm →
      rearm p now t = { t with alarm := none, diag := t.diag ++ [⟨.pwmMode, now⟩] }) ∧
    (0 < t.periodNs → modeClass p t ≠ .pwm →
      ∃ a, rearm p now t = { t with alarm := some a } ∧
        Candidate p t (currentCount t now) a.kind a.target ∧
        (∀ k v, Candidate p t (currentCount t now) k v →
          a.target.toNat < v.toNat ∨ (a.target = v ∧ priority a.kind ≤ priority k)) ∧
        a.deadline = t.epoch +
          (elapsedTicks t now + (a.target.toNat - (currentCount t now).toNat : Int)) * t.periodNs)

/-- R216: compare C is compared against its own register, and the value of compare B plays no part in whether
and where compare C is scheduled. -/
def Obligations.CompareCUsesItsOwnRegister : Prop :=
  ∀ (p : TimerParams) (t : Timer) (c w : Word16),
    ((nextEvent p t c).1 = .compareC → (nextEvent p t c).2 = t.ocrc ∧ c.toNat < t.ocrc.toNat) ∧
    (t.imsk.getLsbD (bitIndex p .ocb) = false → nextEvent p { t with ocrb := w } c = nextEvent p t c) ∧
    (t.imsk.getLsbD (bitIndex p .occ) = true → c.toNat < t.ocrc.toNat → (nextEvent p t c).2.toNat ≤ t.ocrc.toNat)

/-- Derived from R217 and R219 with the spec's decisions D7 and D8: the deadline is the next time at which the
counter stands at the target; it lies in the future except where the counter already stands at 0xFFFF, and then
the event is Overflow. -/
def Obligations.DeadlineIsTheNextArrival : Prop :=
  ∀ (p : TimerParams) (t : Timer) (now : Int) (a : Alarm), 0 < t.periodNs → (rearm p now t).alarm = some a →
    currentCount t a.deadline = a.target ∧
    (currentCount t now ≠ 0xFFFF →
      now < a.deadline ∧ ∀ τ, now ≤ τ → τ < a.deadline → currentCount t τ ≠ a.target) ∧
    (currentCount t now = 0xFFFF → a.deadline ≤ now ∧ a.kind = .overflow ∧ a.target = 0xFFFF)

/-- Derived from R218: between a Rearm and the deadline it armed, a further Rearm with the same registers
changes nothing. -/
def Obligations.RearmIsIdempotent : Prop :=
  ∀ (p : TimerParams) (t : Timer) (now later : Int) (a : Alarm), (rearm p now t).alarm = some a →
    now ≤ later → later < a.deadline → rearm p later (rearm p now t) = rearm p now t

/-! ### InterruptLatch -/

/-- R234, R237, R238: the alarm-fire handler. It sets exactly the flags of the sources R234 names and raises
their lines; a line that rises sets its bit of the pending bitmap and no other bit changes; the epoch moves to
`now` exactly when the expiry resets the counter; the registers are untouched; it ends with Rearm; no other unit and
nothing else changes. (The five bit positions are distinct: D1.) -/
def Obligations.AlarmFireRaisesExactlyTheMatchingSources : Prop :=
  ∀ (s : State) (u : TimerUnit) (a : Alarm), Addresses s u →
    u.params.bitPositions.Nodup → u.regs.alarm = some a → a.deadline ≤ s.now →
    ∃ (t' : Timer) (pending' : List Bool),
      exec .alarmFire s = .next { unitChanged s u t' none with cpu := { s.cpu with pending := pending' } } ∧
      SameRegisters u.regs t' ∧
      (Resets u.params u.regs a.kind → t'.epoch = s.now) ∧
      (¬ Resets u.params u.regs a.kind → t'.epoch = u.regs.epoch) ∧
      (∀ x, t'.ifr.getLsbD (bitIndex u.params x) = true ↔
        u.regs.ifr.getLsbD (bitIndex u.params x) = true ∨
          Raises u.params u.regs a.kind (currentCount u.regs s.now) x) ∧
      (∀ j, (∀ x : Source, bitIndex u.params x ≠ j) → t'.ifr.getLsbD j = u.regs.ifr.getLsbD j) ∧
      (∀ x, t'.line.get x = true ↔
        u.regs.line.get x = true ∨ Raises u.params u.regs a.kind (currentCount u.regs s.now) x) ∧
      pending'.length = s.cpu.pending.length ∧
      (∀ i, i < s.cpu.pending.length → (isPending pending' i = true ↔
        isPending s.cpu.pending i = true ∨ ∃ x, Raises u.params u.regs a.kind (currentCount u.regs s.now) x ∧
          u.regs.line.get x = false ∧ irqIndex u.params x = i)) ∧
      t' = rearm u.params s.now { t' with alarm := none, diag := u.regs.diag }

/-- R236: at the CTC_A top the counter is reset, so that the very next counter read returns 0; the overflow flag
keeps its value, and the compare-A flag is set exactly when its mask bit is 1 (or was set before). In every other
mode an expiry of the same kind does not reset the counter. -/
def Obligations.CompareTopResetsTheCounter : Prop :=
  ∀ (s : State) (u : TimerUnit) (a : Alarm), MachineInv s → Addresses s u → u.regs.alarm = some a →
    a.deadline ≤ s.now → a.kind = .compareA →
    ∃ s1 u1, exec .alarmFire s = .next s1 ∧ Addresses s1 u1 ∧
      (modeClass u.params u.regs ≠ .ctcA → ∀ τ, currentCount u1.regs τ = currentCount u.regs τ) ∧
      (modeClass u.params u.regs = .ctcA →
        currentCount u1.regs s1.now = 0 ∧
        (∃ s2, exec .rdCntl s1 = .next s2 ∧ s2.result = some 0) ∧
        u1.regs.ifr.getLsbD (bitIndex u.params .ovf) = u.regs.ifr.getLsbD (bitIndex u.params .ovf) ∧
        u1.regs.ifr.getLsbD (bitIndex u.params .oca) =
          (u.regs.ifr.getLsbD (bitIndex u.params .oca) || u.regs.imsk.getLsbD (bitIndex u.params .oca)))

/-- Derived from R233: ALARM_FIRE on a unit whose alarm is not armed or not due is not enabled, and is refused by
name (log entry 21). -/
def Obligations.AlarmFireOnlyWhenDue : Prop :=
  ∀ (s : State) (u : TimerUnit), Addresses s u →
    (u.regs.alarm = none ∨ ∃ a, u.regs.alarm = some a ∧ s.now < a.deadline) →
    exec .alarmFire s = .refused .alarmNotDue

/-- Derived from R243 with the spec's decisions D6 and D39: in a state that meets the invariant, the alarm that
expires next finds the counter of its unit at its target. -/
def Obligations.ArrivedTickEqualsTarget : Prop :=
  ∀ (s : State) (k : Nat) (time : Int), MachineInv s → nextOperation s = .expiry k time →
    ∃ u a, unitAt s k = some u ∧ u.regs.alarm = some a ∧ time = fireTime s.now a ∧
      a.deadline ≤ time ∧ currentCount u.regs time = a.target

/-- Derived from R214 with the spec's decision D10: in a state that meets the invariant, a unit in a PWM mode
has no alarm, so that no expiry can set a flag of it. -/
def Obligations.PwmModeIsSilent : Prop :=
  ∀ (s : State) (u : TimerUnit), MachineInv s → Addresses s u → modeClass u.params u.regs = .pwm →
    u.regs.alarm = none ∧ exec .alarmFire s = .refused .alarmNotDue

/-- R306: writing 0xFFFF to the counter in a running supported mode arms Overflow for this same time; its expiry
resets the counter and flags OVF if enabled, and the next counter read returns 0. (The five bit positions are
distinct: D1.) -/
def Obligations.CounterWriteOfFFFFOverflowsAtOnce : Prop :=
  ∀ (s : State) (u : TimerUnit), Addresses s u →
    u.params.bitPositions.Nodup → u.regs.tempHigh = 0xFF → 0 < u.regs.periodNs →
    modeClass u.params u.regs ≠ .pwm →
    ∃ s1 u1 s2 u2 s3, exec (.wrCntl 0xFF) s = .next s1 ∧ Addresses s1 u1 ∧
      u1.regs.alarm = some { kind := .overflow, target := 0xFFFF, deadline := s.now } ∧
      exec .alarmFire s1 = .next s2 ∧ Addresses s2 u2 ∧ s2.now = s.now ∧
      u2.regs.ifr.getLsbD (bitIndex u.params .ovf) =
        (u.regs.ifr.getLsbD (bitIndex u.params .ovf) || u.regs.imsk.getLsbD (bitIndex u.params .ovf)) ∧
      exec .rdCntl s2 = .next s3 ∧ s3.result = some 0 ∧ currentCount u2.regs s2.now = 0

/-! ### The CPU interrupt controller -/

/-- R254, R256: with no reset-class request and the global enable set, a decision point takes the pending source of
least index: it pushes the program counter, clears the global enable and that one bit, and goes to
`BASE_VECTOR + i * VECTOR_SIZE`. With the enable clear or nothing pending it changes nothing. -/
def Obligations.LowestPendingIndexDispatches : Prop :=
  ∀ s : State, s.halted = false → s.cpu.resetReq = false →
    (∀ i, s.cpu.I = true → isPending s.cpu.pending i = true →
      (∀ j, j < i → isPending s.cpu.pending j = false) →
      exec .decisionPoint s = .next (cpuChanged s
        { s.cpu with
          stack := pushPc s.params.pcWidth s.cpu.pc s.cpu.stack
          I := false
          pending := s.cpu.pending.set i false
          pc := BitVec.ofInt 24 ((s.params.baseVector + i * s.params.vectorSize) %
            2 ^ (8 * s.params.pcWidth.bytes)) })) ∧
    ((s.cpu.I = false ∨ ∀ i, isPending s.cpu.pending i = false) →
      exec .decisionPoint s = .next (onlyReturns s none))

/-- Derived from R253 and R257 with the spec's decision D23: a reset-class request is taken first, whatever the
enable and the bitmap are; it pushes the program counter, clears the enable and the request, goes to the reset
vector, and leaves every pending bit. -/
def Obligations.ResetRequestDispatchesFirst : Prop :=
  ∀ s : State, s.halted = false → s.cpu.resetReq = true →
    exec .decisionPoint s = .next (cpuChanged s
      { s.cpu with
        stack := pushPc s.params.pcWidth s.cpu.pc s.cpu.stack
        I := false
        resetReq := false
        pc := BitVec.ofInt 24 (s.params.resetVector % 2 ^ (8 * s.params.pcWidth.bytes)) })

/-- Derived from the spec's decision D24 (log entry 10): a program counter is pushed least significant byte first,
`PC_BYTES` bytes, so that the most significant is the last stored. -/
def Obligations.ProgramCounterPushedLowByteFirst : Prop :=
  ∀ (w : PcWidth) (pc : Pc) (stack : List Byte), pushPc w pc stack = pcBytes w pc ++ stack

/-- Derived from the spec's decisions D23 and D31: the environment's write of the global enable and its
reset-class request change that one bit and nothing else. -/
def Obligations.EnvironmentActionsSetOneBit : Prop :=
  ∀ (s : State) (b : Bool), s.halted = false →
    exec (.envSetI b) s = .next (cpuChanged s { s.cpu with I := b }) ∧
    exec .envResetReq s = .next (cpuChanged s { s.cpu with resetReq := true })

/-- Derived from the spec's decisions D24 and D31: the return pops exactly one pushed program counter, sets the
global enable, and changes nothing else; with fewer bytes on the stack than one program counter it is refused
(U19, log entry 18). -/
def Obligations.ReturnRestoresThePushedCounter : Prop :=
  ∀ (s : State) (pc : Pc) (below : List Byte), s.halted = false →
    (fitsPc s.params.pcWidth pc → s.cpu.stack = pcBytes s.params.pcWidth pc ++ below →
      exec .envReti s = .next (cpuChanged s { s.cpu with pc := pc, stack := below, I := true })) ∧
    (s.cpu.stack.length < s.params.pcWidth.bytes → exec .envReti s = .refused .nothingPushed)

/-- Derived from R255, R258 and R264 (and the decisions D24 and D31 for the push and the return): a dispatch
followed by a return resumes at the interrupted program counter with the stack as it was and the global enable
set; exactly the request taken is gone. -/
def Obligations.DispatchThenReturnResumes : Prop :=
  ∀ (s : State) (i : Nat), s.halted = false → fitsPc s.params.pcWidth s.cpu.pc → s.cpu.resetReq = false →
    s.cpu.I = true → isPending s.cpu.pending i = true → (∀ j, j < i → isPending s.cpu.pending j = false) →
    ∃ s1, exec .decisionPoint s = .next s1 ∧
      exec .envReti s1 = .next (cpuChanged s { s.cpu with pending := s.cpu.pending.set i false, I := true })

/-- Derived from the spec's decision D24: a push stores its byte at the stack pointer, then decrements the stack
pointer by one, and leaves every other address as it was; the place of the stack is the platform's. -/
def Obligations.StackPushStoresThenDecrements : Prop :=
  ∀ (base : Int) (b : Byte) (stack : List Byte),
    stackByte base (stackPush8 b stack) (stackPointer base stack) = some b ∧
    stackPointer base (stackPush8 b stack) = stackPointer base stack - 1 ∧
    ∀ addr, addr ≠ stackPointer base stack →
      stackByte base (stackPush8 b stack) addr = stackByte base stack addr

/-! ### Reset -/

/-- Derived from R290 and R292, with the values of the spec's decision D22: CPU_RESET puts back every register of
every unit, stops it, disarms it, and clears the pending bitmap, the reset request and the global enable; the
parameters, the diagnostics, the fault mark, the program counter and the stack are unchanged. -/
def Obligations.ResetClearsEveryUnit : Prop :=
  ∀ s : State, s.halted = false →
    ∃ s', exec .cpuReset s = .next s' ∧
      (∀ k u, unitAt s k = some u → unitAt s' k =
        some { u with regs := { Timer.atReset s.now with diag := u.regs.diag } }) ∧
      s'.timers.length = s.timers.length ∧
      s' = { s with timers := s'.timers, result := none,
                    cpu := { s.cpu with pending := s'.cpu.pending, resetReq := false, I := false } } ∧
      s'.cpu.pending = List.replicate s.cpu.pending.length false

/-- Derived from R45 and R291 with the values of the spec's decision D22: what construction leaves. (The program
counter's value is the model's choice, log entry 9, and is not stated.) -/
def Obligations.ConstructionState : Prop :=
  ∀ (m : MachineParams) (ps : List TimerParams) (t : Int),
    (State.construct m ps t).halted = false ∧ (State.construct m ps t).now = t ∧
    (State.construct m ps t).cpu.pending = List.replicate m.nSrc false ∧
    (State.construct m ps t).cpu.resetReq = false ∧ (State.construct m ps t).cpu.I = false ∧
    (State.construct m ps t).timers.map TimerUnit.params = ps ∧
    ∀ u ∈ (State.construct m ps t).timers,
      u.regs.cra = 0 ∧ u.regs.crb = 0 ∧ u.regs.crc = 0 ∧ u.regs.tempHigh = 0 ∧ u.regs.icr = 0 ∧
      u.regs.ocra = 0 ∧ u.regs.ocrb = 0 ∧ u.regs.ocrc = 0 ∧ u.regs.imsk = 0 ∧ u.regs.ifr = 0 ∧
      u.regs.freqHz = 0 ∧ u.regs.periodNs = 0 ∧ u.regs.epoch = t ∧ u.regs.alarm = none ∧
      (∀ x, u.regs.line.get x = false) ∧ u.regs.diag = [] ∧ ∀ τ, currentCount u.regs τ = 0

/-! ### Whole-machine rules -/

/-- R241: no operation but WR_IFR and CPU_RESET clears a flag or lowers a line, of any unit. -/
def Obligations.FlagsPersistUntilCleared : Prop :=
  ∀ (i : Instr) (s s' : State) (k : Nat) (u u' : TimerUnit) (x : Source),
    exec i s = .next s' → (∀ v, i ≠ .wrIfr v) → i ≠ .cpuReset →
    unitAt s k = some u → unitAt s' k = some u' →
    (u.regs.ifr.getLsbD (bitIndex u.params x) = true → u'.regs.ifr.getLsbD (bitIndex u.params x) = true) ∧
    (u.regs.line.get x = true → u'.regs.line.get x = true)

/-- R39, R251: the pending bitmap. A line that rises sets the bit it is wired to in the same operation; a bit is set
by nothing else, and only ALARM_FIRE raises a line; a bit is cleared only by the dispatch that takes it or by reset,
which clears all; no bus operation touches it; the bitmap has `N_SRC` bits, all zero at construction. -/
def Obligations.PendingBitsFollowEdgesAndDispatches : Prop :=
  (∀ m ps t, (State.construct m ps t).cpu.pending = List.replicate m.nSrc false) ∧
  ∀ (i : Instr) (s s' : State), exec i s = .next s' →
    s'.cpu.pending.length = s.cpu.pending.length ∧
    (∀ (k : Nat) (u u' : TimerUnit) (x : Source), unitAt s k = some u → unitAt s' k = some u' →
      u.regs.line.get x = false → u'.regs.line.get x = true →
      irqIndex u.params x < s.cpu.pending.length → isPending s'.cpu.pending (irqIndex u.params x) = true) ∧
    (i = .cpuReset → ∀ j, isPending s'.cpu.pending j = false) ∧
    ∀ j, (isPending s.cpu.pending j = false → isPending s'.cpu.pending j = true →
        i = .alarmFire ∧ ∃ u u' x, unitAt s s.sel = some u ∧ unitAt s' s.sel = some u' ∧
          u.regs.line.get x = false ∧ u'.regs.line.get x = true ∧ irqIndex u.params x = j) ∧
      (isPending s.cpu.pending j = true → isPending s'.cpu.pending j = false →
        i = .cpuReset ∨ (i = .decisionPoint ∧ s.cpu.resetReq = false ∧ s.cpu.I = true ∧
          ∀ j', j' < j → isPending s.cpu.pending j' = false))

/-- Derived from R41, R42, R73 and R266: no operation but the decision point and the return writes the program
counter or the stack, and no operation but those two, ENV_SET_I and CPU_RESET writes the global enable. -/
def Obligations.OnlyDispatchAndReturnMoveThePc : Prop :=
  ∀ (i : Instr) (s s' : State), exec i s = .next s' → i ≠ .decisionPoint → i ≠ .envReti →
    s'.cpu.pc = s.cpu.pc ∧ s'.cpu.stack = s.cpu.stack ∧
    ((∀ b, i ≠ .envSetI b) → i ≠ .cpuReset → s'.cpu.I = s.cpu.I)

/-- Derived from R48: two units share nothing. No operation but CPU_RESET changes a unit other than the one it is
for, the CPU-side operations change no unit at all, and no operation changes the number of units. -/
def Obligations.UnitsShareNothing : Prop :=
  ∀ (i : Instr) (s s' : State), exec i s = .next s' → i ≠ .cpuReset →
    s'.timers.length = s.timers.length ∧ (∀ k, k ≠ s.sel → unitAt s' k = unitAt s k) ∧
    (i = .decisionPoint ∨ i = .envReti ∨ i = .envResetReq ∨ (∃ b, i = .envSetI b) → s'.timers = s.timers)

/-- Derived from R29: the latch of a unit changes only by a read of CNTL or ICRL, by a write of CNTH, by a write
of ICRH in capture-top mode, or by reset. -/
def Obligations.LatchWriters : Prop :=
  ∀ (i : Instr) (s s' : State) (k : Nat) (u u' : TimerUnit), exec i s = .next s' →
    unitAt s k = some u → unitAt s' k = some u' → u'.regs.tempHigh ≠ u.regs.tempHigh →
    i = .cpuReset ∨ (k = s.sel ∧ (i = .rdCntl ∨ i = .rdIcrl ∨ (∃ v, i = .wrCnth v) ∨
      ((∃ v, i = .wrIcrh v) ∧ modeClass u.params u.regs = .ctcIcr)))

/-- Derived from R25 and R6: the capture register of a unit changes only by a write of ICRL in capture-top mode,
or by reset; no hardware event writes it. -/
def Obligations.CaptureRegisterWriters : Prop :=
  ∀ (i : Instr) (s s' : State) (k : Nat) (u u' : TimerUnit), exec i s = .next s' →
    unitAt s k = some u → unitAt s' k = some u' → u'.regs.icr ≠ u.regs.icr →
    i = .cpuReset ∨ (k = s.sel ∧ (∃ v, i = .wrIcrl v) ∧ modeClass u.params u.regs = .ctcIcr)

/-- Derived from R32 and R33: frequency and period change only by WR_CRB or reset; the epoch only by WR_CRB,
WR_CNTL, ALARM_FIRE or reset. -/
def Obligations.ClockAndEpochWriters : Prop :=
  ∀ (i : Instr) (s s' : State) (k : Nat) (u u' : TimerUnit), exec i s = .next s' →
    unitAt s k = some u → unitAt s' k = some u' →
    ((u'.regs.freqHz ≠ u.regs.freqHz ∨ u'.regs.periodNs ≠ u.regs.periodNs) →
      i = .cpuReset ∨ (k = s.sel ∧ ∃ v, i = .wrCrb v)) ∧
    (u'.regs.epoch ≠ u.regs.epoch →
      i = .cpuReset ∨ (k = s.sel ∧ ((∃ v, i = .wrCrb v) ∨ (∃ v, i = .wrCntl v) ∨ i = .alarmFire)))

/-- Derived from R37 and R270: diagnostics are only ever appended, by any operation, reset included, and each new
record carries the time of the operation. -/
def Obligations.DiagnosticsOnlyAppended : Prop :=
  ∀ (i : Instr) (s s' : State) (k : Nat) (u u' : TimerUnit), exec i s = .next s' →
    unitAt s k = some u → unitAt s' k = some u' →
    ∃ new : List Diag, u'.regs.diag = u.regs.diag ++ new ∧ ∀ d ∈ new, d.time = s.now

/-! ### 16-bit sequences -/

/-- Derived from R173: the low byte read at one time and the high byte read at any later time, the latch
untouched in between, are the two halves of the counter at the time of the low-byte read; the same for the
capture register. -/
def Obligations.SixteenBitReadIsAtomic : Prop :=
  ∀ (s s2 : State) (u u2 : TimerUnit), Addresses s u → Addresses s2 u2 →
    (∀ s1 u1, exec .rdCntl s = .next s1 → unitAt s1 s1.sel = some u1 →
      u2.regs.tempHigh = u1.regs.tempHigh →
      ∃ s3 lo hi, s1.result = some lo ∧ exec .rdCnth s2 = .next s3 ∧ s3.result = some hi ∧
        hi.toNat * 256 + lo.toNat = (currentCount u.regs s.now).toNat) ∧
    (∀ s1 u1, exec .rdIcrl s = .next s1 → unitAt s1 s1.sel = some u1 →
      u2.regs.tempHigh = u1.regs.tempHigh →
      ∃ s3 lo hi, s1.result = some lo ∧ exec .rdIcrh s2 = .next s3 ∧ s3.result = some hi ∧
        hi.toNat * 256 + lo.toNat = u.regs.icr.toNat)

/-- Derived from R174: the high byte written, then the low byte at any later time with the timer running, the
unit untouched in between, makes the counter read the written value at the time of the low-byte write. -/
def Obligations.SixteenBitWriteIsAtomic : Prop :=
  ∀ (s : State) (u : TimerUnit) (h l : Byte) (later : Int), Addresses s u →
    0 < u.regs.periodNs →
    ∃ s1 s2 u2, exec (.wrCnth h) s = .next s1 ∧ exec (.wrCntl l) { s1 with now := later } = .next s2 ∧
      unitAt s2 s.sel = some u2 ∧ (currentCount u2.regs later).toNat = h.toNat * 256 + l.toNat

/-! ### The step -/

/-- Derived from R62, R63, R75 and R140: when no alarm is due before it, the bytes presented next are decoded and
the step is `exec` of that operation, at the transaction's time, for its unit, with the program counter the CPU
core presents, and with the transaction taken from the queue (log entry 2). -/
def Obligations.StepRunsThePresentedOperation : Prop :=
  ∀ (s : State) (x : Transaction) (rest : List Transaction) (i : Instr) (tail : List Byte),
    s.halted = false → s.inputs = x :: rest → s.now ≤ x.now → x.width = 1 → decode x.bytes = .ok (i, tail) →
    (∀ k u a, unitAt s k = some u → u.regs.alarm = some a → x.now < fireTime s.now a) →
    step s = exec i { s with
      now := x.now
      sel := x.timer
      inputs := rest
      cpu := { s.cpu with pc := match x.pcIn with
        | some pc => BitVec.ofNat 24 (pc.toNat % 2 ^ (8 * s.params.pcWidth.bytes))
        | none => s.cpu.pc } }

/-- Derived from R76 and R261 with the spec's decision D6 (and log entry 6 for two units at one time): an alarm
due at or before the time of the next transaction expires before it, at its expiry time, earliest first; the
transaction stays presented. (A transaction that is itself an ALARM_FIRE is log entry 21.) -/
def Obligations.DueAlarmExpiresFirst : Prop :=
  ∀ (s : State) (x : Transaction) (rest : List Transaction) (k : Nat) (u : TimerUnit) (a : Alarm),
    s.halted = false → s.inputs = x :: rest → (∀ tail, decode x.bytes ≠ .ok (.alarmFire, tail)) →
    unitAt s k = some u → u.regs.alarm = some a → fireTime s.now a ≤ x.now →
    (∀ k' u' a', unitAt s k' = some u' → u'.regs.alarm = some a' →
      fireTime s.now a < fireTime s.now a' ∨ (fireTime s.now a = fireTime s.now a' ∧ k ≤ k')) →
    step s = exec .alarmFire { s with now := fireTime s.now a, sel := k }

/-- Derived from R67 and R268: a BUS transaction of any width but one byte sets the fault mark and changes no
register; the run ends there in the fault state. That the violation is a next state and every later step the fault is
log entry 7; that it holds for every BUS word, those R101 calls no operation included, is log entry 15. -/
def Obligations.WrongWidthHaltsTheMachine : Prop :=
  ∀ (s : State) (x : Transaction) (rest : List Transaction) (t : Byte) (tail : List Byte),
    s.halted = false → s.inputs = x :: rest → s.now ≤ x.now → x.bytes = t :: tail → t.toNat < 0x60 →
    x.width ≠ 1 → x.timer < s.timers.length →
    (∀ k u a, unitAt s k = some u → u.regs.alarm = some a → x.now < fireTime s.now a) →
    ∃ s', step s = .next s' ∧ s'.halted = true ∧ s'.timers = s.timers ∧ s'.params = s.params ∧
      s'.cpu.pending = s.cpu.pending ∧ s'.cpu.I = s.cpu.I ∧ s'.cpu.resetReq = s.cpu.resetReq ∧
      s'.cpu.stack = s.cpu.stack ∧ s'.result = none ∧ step s' = .fault .hostAssert

/-- R43: the fault mark is false at construction, no operation clears it, reset included, and once it is set no
operation is enabled: every operation and every step is the fault. -/
def Obligations.HaltedMachineDoesNothing : Prop :=
  (∀ m ps t, (State.construct m ps t).halted = false) ∧
  (∀ (s : State), s.halted = true → step s = .fault .hostAssert ∧ ∀ i, exec i s = .fault .hostAssert) ∧
  (∀ (i : Instr) (s s' : State), exec i s = .next s' → s'.halted = s.halted)

/-- Derived from R9, R46 and R292: a step never takes time back, and never changes a parameter of the machine or
of a unit, or the number of units. -/
def Obligations.StepKeepsParametersAndTimeOrder : Prop :=
  ∀ s s' : State, step s = .next s' →
    s.now ≤ s'.now ∧ s'.params = s.params ∧
    s'.timers.map TimerUnit.params = s.timers.map TimerUnit.params

/-- Derived from R277: two alarms due at one time on two units may expire in either order; the state afterwards is
the same (but for which unit was addressed last). -/
def Obligations.SimultaneousAlarmsCommute : Prop :=
  ∀ (s : State) (j k : Nat) (uj uk : TimerUnit) (aj ak : Alarm), s.halted = false → j ≠ k →
    unitAt s j = some uj → unitAt s k = some uk → uj.regs.alarm = some aj → uk.regs.alarm = some ak →
    aj.deadline ≤ s.now → ak.deadline ≤ s.now →
    ∃ s1 s2 s3 s4, exec .alarmFire { s with sel := j } = .next s1 ∧
      exec .alarmFire { s1 with sel := k } = .next s2 ∧
      exec .alarmFire { s with sel := k } = .next s3 ∧
      exec .alarmFire { s3 with sel := j } = .next s4 ∧ { s2 with sel := j } = s4

/-! ### The invariant -/

/-- Derived from R38 and R45: the invariant holds at construction, whatever the time and the parameters, with
the five bit positions of each unit distinct (D1). -/
def Obligations.InvariantAtConstruction : Prop :=
  ∀ (m : MachineParams) (ps : List TimerParams) (t : Int), (∀ p ∈ ps, p.bitPositions.Nodup) →
    MachineInv (State.construct m ps t)

/-- Derived from R38, R39, R42, R129, R220, R242 and R243: every step keeps the invariant. -/
def Obligations.StepKeepsInvariant : Prop :=
  ∀ s s' : State, MachineInv s → step s = .next s' → MachineInv s'
end

