-- ==== Sys2Proof/Laws/State.lean ====
section
/-! SUPPORT. One lemma per field per update of a state record, so that no later proof unfolds an update. -/

namespace Sys2Proof.Machine

/-! ### putTimer -/

@[simp] theorem putTimer_params (s u t) : (putTimer s u t).params = s.params := rfl
@[simp] theorem putTimer_timers (s u t) :
    (putTimer s u t).timers = s.timers.set s.sel { u with regs := t } := rfl
@[simp] theorem putTimer_cpu (s u t) : (putTimer s u t).cpu = s.cpu := rfl
@[simp] theorem putTimer_halted (s u t) : (putTimer s u t).halted = s.halted := rfl
@[simp] theorem putTimer_now (s u t) : (putTimer s u t).now = s.now := rfl
@[simp] theorem putTimer_sel (s u t) : (putTimer s u t).sel = s.sel := rfl
@[simp] theorem putTimer_result (s u t) : (putTimer s u t).result = s.result := rfl
@[simp] theorem putTimer_inputs (s u t) : (putTimer s u t).inputs = s.inputs := rfl

/-! ### answer -/

@[simp] theorem answer_params (s r) : (answer s r).params = s.params := rfl
@[simp] theorem answer_timers (s r) : (answer s r).timers = s.timers := rfl
@[simp] theorem answer_cpu (s r) : (answer s r).cpu = s.cpu := rfl
@[simp] theorem answer_halted (s r) : (answer s r).halted = s.halted := rfl
@[simp] theorem answer_now (s r) : (answer s r).now = s.now := rfl
@[simp] theorem answer_sel (s r) : (answer s r).sel = s.sel := rfl
@[simp] theorem answer_result (s r) : (answer s r).result = r := rfl
@[simp] theorem answer_inputs (s r) : (answer s r).inputs = s.inputs := rfl

theorem answer_putTimer (s u t r) : answer (putTimer s u t) r = unitChanged s u t r := rfl

/-! ### unitChanged, onlyReturns, cpuChanged -/

@[simp] theorem unitChanged_params (s u t r) : (unitChanged s u t r).params = s.params := rfl
@[simp] theorem unitChanged_timers (s u t r) :
    (unitChanged s u t r).timers = s.timers.set s.sel { u with regs := t } := rfl
@[simp] theorem unitChanged_cpu (s u t r) : (unitChanged s u t r).cpu = s.cpu := rfl
@[simp] theorem unitChanged_halted (s u t r) : (unitChanged s u t r).halted = s.halted := rfl
@[simp] theorem unitChanged_now (s u t r) : (unitChanged s u t r).now = s.now := rfl
@[simp] theorem unitChanged_sel (s u t r) : (unitChanged s u t r).sel = s.sel := rfl
@[simp] theorem unitChanged_result (s u t r) : (unitChanged s u t r).result = r := rfl
@[simp] theorem unitChanged_inputs (s u t r) : (unitChanged s u t r).inputs = s.inputs := rfl

@[simp] theorem onlyReturns_params (s r) : (onlyReturns s r).params = s.params := rfl
@[simp] theorem onlyReturns_timers (s r) : (onlyReturns s r).timers = s.timers := rfl
@[simp] theorem onlyReturns_cpu (s r) : (onlyReturns s r).cpu = s.cpu := rfl
@[simp] theorem onlyReturns_halted (s r) : (onlyReturns s r).halted = s.halted := rfl
@[simp] theorem onlyReturns_now (s r) : (onlyReturns s r).now = s.now := rfl
@[simp] theorem onlyReturns_sel (s r) : (onlyReturns s r).sel = s.sel := rfl
@[simp] theorem onlyReturns_result (s r) : (onlyReturns s r).result = r := rfl
@[simp] theorem onlyReturns_inputs (s r) : (onlyReturns s r).inputs = s.inputs := rfl

@[simp] theorem cpuChanged_params (s c) : (cpuChanged s c).params = s.params := rfl
@[simp] theorem cpuChanged_timers (s c) : (cpuChanged s c).timers = s.timers := rfl
@[simp] theorem cpuChanged_cpu (s c) : (cpuChanged s c).cpu = c := rfl
@[simp] theorem cpuChanged_halted (s c) : (cpuChanged s c).halted = s.halted := rfl
@[simp] theorem cpuChanged_now (s c) : (cpuChanged s c).now = s.now := rfl
@[simp] theorem cpuChanged_sel (s c) : (cpuChanged s c).sel = s.sel := rfl
@[simp] theorem cpuChanged_result (s c) : (cpuChanged s c).result = none := rfl
@[simp] theorem cpuChanged_inputs (s c) : (cpuChanged s c).inputs = s.inputs := rfl

/-! ### accept, atExpiry, raiseHostAssert -/

@[simp] theorem accept_params (s x rest) : (accept s x rest).params = s.params := rfl
@[simp] theorem accept_timers (s x rest) : (accept s x rest).timers = s.timers := rfl
@[simp] theorem accept_halted (s x rest) : (accept s x rest).halted = s.halted := rfl
@[simp] theorem accept_now (s x rest) : (accept s x rest).now = x.now := rfl
@[simp] theorem accept_sel (s x rest) : (accept s x rest).sel = x.timer := rfl
@[simp] theorem accept_result (s x rest) : (accept s x rest).result = s.result := rfl
@[simp] theorem accept_inputs (s x rest) : (accept s x rest).inputs = rest := rfl

/-- The CPU side of an accepted transaction: only the program counter can be another. -/
theorem accept_cpu (s x rest) : (accept s x rest).cpu =
    { s.cpu with pc := match x.pcIn with
        | some pc => toPc s.params.pcWidth pc.toNat
        | none => s.cpu.pc } := by
  unfold accept
  cases x.pcIn <;> rfl

@[simp] theorem atExpiry_params (s k τ) : (atExpiry s k τ).params = s.params := rfl
@[simp] theorem atExpiry_timers (s k τ) : (atExpiry s k τ).timers = s.timers := rfl
@[simp] theorem atExpiry_cpu (s k τ) : (atExpiry s k τ).cpu = s.cpu := rfl
@[simp] theorem atExpiry_halted (s k τ) : (atExpiry s k τ).halted = s.halted := rfl
@[simp] theorem atExpiry_now (s k τ) : (atExpiry s k τ).now = τ := rfl
@[simp] theorem atExpiry_sel (s k τ) : (atExpiry s k τ).sel = k := rfl
@[simp] theorem atExpiry_result (s k τ) : (atExpiry s k τ).result = s.result := rfl
@[simp] theorem atExpiry_inputs (s k τ) : (atExpiry s k τ).inputs = s.inputs := rfl

@[simp] theorem raiseHostAssert_params (s) : (raiseHostAssert s).params = s.params := rfl
@[simp] theorem raiseHostAssert_timers (s) : (raiseHostAssert s).timers = s.timers := rfl
@[simp] theorem raiseHostAssert_cpu (s) : (raiseHostAssert s).cpu = s.cpu := rfl
@[simp] theorem raiseHostAssert_halted (s) : (raiseHostAssert s).halted = true := rfl
@[simp] theorem raiseHostAssert_now (s) : (raiseHostAssert s).now = s.now := rfl
@[simp] theorem raiseHostAssert_sel (s) : (raiseHostAssert s).sel = s.sel := rfl
@[simp] theorem raiseHostAssert_result (s) : (raiseHostAssert s).result = s.result := rfl
@[simp] theorem raiseHostAssert_inputs (s) : (raiseHostAssert s).inputs = s.inputs := rfl

/-! ### Updates of a timer -/

@[simp] theorem resetToZero_epoch (now t) : (resetToZero now t).epoch = now := rfl
@[simp] theorem resetToZero_periodNs (now t) : (resetToZero now t).periodNs = t.periodNs := rfl
@[simp] theorem resetToZero_alarm (now t) : (resetToZero now t).alarm = t.alarm := rfl
@[simp] theorem writeRaw_epoch (now v t) : (writeRaw now v t).epoch = now - v.toNat * t.periodNs := rfl
@[simp] theorem writeRaw_periodNs (now v t) : (writeRaw now v t).periodNs = t.periodNs := rfl

/-- What `addDiagIf` does to the diagnostics. -/
theorem addDiagIf_eq (c k now t) :
    addDiagIf c k now t = { t with diag := t.diag ++ if c then [⟨k, now⟩] else [] } := by
  unfold addDiagIf addDiag
  cases c <;> simp

end Sys2Proof.Machine
end

