-- ==== Sys2Proof/Laws/Operands.lean ====
section
/-! SUPPORT. The byte halves, the fields and the unsupported patterns of a register byte, as numbers. -/

namespace Sys2Proof.Machine

/-- A claim about every byte, from the 256 numbers. -/
theorem forall_byte {P : Byte → Prop} (h : ∀ n : Fin 256, P (BitVec.ofFin n)) (b : Byte) : P b :=
  h b.toFin

theorem lowByte_toNat (w : Word16) : (lowByte w).toNat = w.toNat % 256 := by
  simp [lowByte]

theorem highByte_toNat (w : Word16) : (highByte w).toNat = w.toNat / 256 := by
  have := w.isLt
  simp [highByte, Nat.shiftRight_eq_div_pow]
  omega

theorem lowByte_eq (w : Word16) : lowByte w = BitVec.ofNat 8 (w.toNat % 256) :=
  BitVec.eq_of_toNat_eq (by simp [lowByte_toNat])

theorem highByte_eq (w : Word16) : highByte w = BitVec.ofNat 8 (w.toNat / 256) :=
  BitVec.eq_of_toNat_eq (by
    have := w.isLt
    simp [highByte_toNat]
    omega)

theorem joinBytes_toNat (h l : Byte) : (joinBytes h l).toNat = h.toNat * 256 + l.toNat := by
  rw [joinBytes, BitVec.toNat_append, ← Nat.shiftLeft_add_eq_or_of_lt (BitVec.isLt _), Nat.shiftLeft_eq]

theorem joinBytes_eq (h l : Byte) : joinBytes h l = BitVec.ofNat 16 (h.toNat * 256 + l.toNat) :=
  BitVec.eq_of_toNat_eq (by
    have := h.isLt
    have := l.isLt
    rw [joinBytes_toNat]
    simp
    omega)

theorem withLow_eq (w : Word16) (v : Byte) : withLow w v = BitVec.ofNat 16 (w.toNat / 256 * 256 + v.toNat) := by
  rw [withLow, joinBytes_eq, highByte_toNat]

theorem withHigh_eq (w : Word16) (v : Byte) : withHigh w v = BitVec.ofNat 16 (v.toNat * 256 + w.toNat % 256) := by
  rw [withHigh, joinBytes_eq, lowByte_toNat]

theorem csField_eq (b : Byte) : csField b = b.toNat % 8 := by
  simp [csField]

theorem wgm_toNat (t : Timer) : (wgm t).toNat = 4 * (t.crb.toNat / 8 % 4) + t.cra.toNat % 4 := by
  rw [wgm, BitVec.toNat_append, ← Nat.shiftLeft_add_eq_or_of_lt (BitVec.isLt _)]
  simp [Nat.shiftLeft_eq, Nat.shiftRight_eq_div_pow]
  omega

set_option maxRecDepth 4000 in
theorem asksComparePin_eq : ∀ b : Byte, asksComparePin b = decide (4 ≤ b.toNat) :=
  forall_byte (by decide)

set_option maxRecDepth 4000 in
theorem asksCaptureNoise_eq : ∀ b : Byte, asksCaptureNoise b = decide (32 ≤ b.toNat) :=
  forall_byte (by decide)

set_option maxRecDepth 4000 in
/-- With the decided mask: bits 7:5. -/
theorem and_e0_ne_zero : ∀ b : Byte, (b &&& 0xE0 ≠ 0) ↔ 32 ≤ b.toNat :=
  forall_byte (by decide)

set_option maxRecDepth 4000 in
theorem asksExtClock_eq : ∀ b : Byte, asksExtClock b = decide (6 ≤ b.toNat % 8) :=
  forall_byte (by decide)

theorem pcByte_eq (pc : Pc) (k : Nat) : pcByte pc k = BitVec.ofNat 8 (pc.toNat / 2 ^ (8 * k)) :=
  BitVec.eq_of_toNat_eq (by simp [pcByte, Nat.shiftRight_eq_div_pow])

theorem toPc_fits (w : PcWidth) (x : Int) : fitsPc w (toPc w x) := by
  unfold fitsPc toPc
  rw [BitVec.toNat_ofInt]
  cases w <;> simp [PcWidth.bytes] <;> omega

end Sys2Proof.Machine
end

