-- ==== Sys2Proof/Laws/Cpu.lean ====
section
/-! SUPPORT. What the operations on the CPU side can do, said once: the stack, the bitmap, taking an interrupt. -/

namespace Sys2Proof.Machine

/-! ### The stack -/

theorem pcBytes_length (w : PcWidth) (pc : Pc) : (pcBytes w pc).length = w.bytes := by
  simp [pcBytes]

theorem pushPc_eq (w : PcWidth) (pc : Pc) (stack : List Byte) : pushPc w pc stack = pcBytes w pc ++ stack := by
  cases w <;> simp [pushPc, pcBytes, PcWidth.bytes, List.range_succ, stackPush8, pcByte_eq]

theorem pushPc_length (w : PcWidth) (pc : Pc) (stack : List Byte) :
    (pushPc w pc stack).length = w.bytes + stack.length := by
  rw [pushPc_eq, List.length_append, pcBytes_length]

/-- A pop takes one program counter's bytes off, and what it returns fits the machine's width. -/
theorem popPc_some {w : PcWidth} {stack stack' : List Byte} {pc : Pc} (h : popPc w stack = some (pc, stack')) :
    fitsPc w pc ∧ stack'.length + w.bytes = stack.length := by
  unfold popPc at h
  split at h
  · cases h
  · cases h
    refine ⟨?_, by simp; omega⟩
    unfold fitsPc
    match w, stack with
    | .one, a :: _ =>
      have := a.isLt
      simp [PcWidth.bytes]
      omega
    | .two, a :: b :: _ =>
      have := a.isLt
      have := b.isLt
      simp only [PcWidth.bytes, List.take, List.foldl, BitVec.toNat_or]
      apply Nat.or_lt_two_pow <;> simp <;> omega
    | .three, _ => simpa [PcWidth.bytes] using BitVec.isLt _
    | .one, [] => simp [PcWidth.bytes] at *
    | .two, [] => simp [PcWidth.bytes] at *
    | .two, [_] => simp [PcWidth.bytes] at *

theorem popPc_none {w : PcWidth} {stack : List Byte} (h : stack.length < w.bytes) : popPc w stack = none :=
  if_pos h

/-! ### The bitmap -/

theorem lt_length_of_isPending {p : List Bool} {i : Nat} (h : isPending p i = true) : i < p.length := by
  by_contra hi
  simp [isPending, List.getD_eq_getElem?_getD, List.getElem?_eq_none (Nat.not_lt.1 hi)] at h

@[simp] theorem setPending_length (p : List Bool) (i : Nat) (b : Bool) : (setPending p i b).length = p.length := by
  simp [setPending]

theorem isPending_clear (p : List Bool) (i j : Nat) :
    isPending (setPending p i false) j = (isPending p j && !decide (i = j)) := by
  simp only [isPending, setPending, List.getD_eq_getElem?_getD, List.getElem?_set]
  by_cases h : i = j
  · subst h
    simp
    split <;> simp
  · simp [h]

/-- Two bitmaps of one length with the same bits are the same. -/
theorem pending_ext {p q : List Bool} (h : p.length = q.length)
    (hb : ∀ i, i < p.length → isPending p i = isPending q i) : p = q := by
  apply List.ext_getElem h
  intro i hp hq
  simpa [isPending, List.getD_eq_getElem?_getD, hp, hq] using hb i hp

/-- The least index is set, and no smaller one is. -/
theorem leastPending_eq_some {p : List Bool} {i : Nat} :
    leastPending p = some i ↔ isPending p i = true ∧ ∀ j, j < i → isPending p j = false := by
  induction p generalizing i with
  | nil => simp [leastPending, isPending]
  | cons b p ih =>
    cases b with
    | true =>
      cases i with
      | zero => simp [leastPending, isPending]
      | succ i =>
        simp only [leastPending, Option.some.injEq, reduceCtorEq, false_iff, not_and]
        intro _ h
        simpa [isPending] using h 0 (by omega)
    | false =>
      cases i with
      | zero => simp [leastPending, isPending]
      | succ i =>
        have h1 : ∀ k, isPending (false :: p) (k + 1) = isPending p k := fun k => by simp [isPending]
        simp only [leastPending, Option.map_eq_some_iff, Nat.add_right_cancel_iff, exists_eq_right, ih, h1]
        refine and_congr_right fun _ => ⟨fun h j hj => ?_, fun h j hj => h1 j ▸ h (j + 1) (by omega)⟩
        cases j with
        | zero => simp [isPending]
        | succ j => exact h1 j ▸ h j (by omega)

theorem leastPending_eq_none {p : List Bool} : leastPending p = none ↔ ∀ i, isPending p i = false := by
  induction p with
  | nil => simp [leastPending, isPending]
  | cons b p ih =>
    cases b with
    | true => exact ⟨fun h => (nomatch h), fun h => by simpa [isPending] using h 0⟩
    | false =>
      simp only [leastPending, Option.map_eq_none_iff, ih]
      refine ⟨fun h i => ?_, fun h i => by simpa [isPending] using h (i + 1)⟩
      cases i with
      | zero => simp [isPending]
      | succ i => simpa [isPending] using h i

/-! ### The decision point -/

/-- Everything the decision point can do to the CPU side. -/
theorem decisionPoint_cases (m : MachineParams) (c : Cpu) :
    (c.resetReq = true ∧ decisionPoint m c = { takeInterrupt m m.resetVector c with resetReq := false }) ∨
    (∃ i, c.resetReq = false ∧ c.I = true ∧ leastPending c.pending = some i ∧
      decisionPoint m c = { takeInterrupt m (vectorOf m i) c with pending := setPending c.pending i false }) ∨
    (c.resetReq = false ∧ (c.I = false ∨ leastPending c.pending = none) ∧ decisionPoint m c = c) := by
  unfold decisionPoint
  cases hr : c.resetReq with
  | true => simp
  | false =>
    cases hI : c.I with
    | false => simp
    | true => cases leastPending c.pending <;> simp

end Sys2Proof.Machine
end

