-- ==== Sys2Proof/Laws/Ops.lean ====
section
/-! SUPPORT. Everything a shared operation can do, said once: how it runs on an addressed unit, and what a next state
of it looks like. -/

namespace Sys2Proof.Machine

variable {s s' : State} {u : TimerUnit}

theorem ifRunning_of_not_halted (h : s.halted = false) (k : Out) : ifRunning s k = k := by
  simp [ifRunning, h]

theorem ifRunning_of_halted (h : s.halted = true) (k : Out) : ifRunning s k = .fault .hostAssert := by
  simp [ifRunning, h]

/-- A next state comes from a machine that is not halted. -/
theorem ifRunning_next {k : Out} (h : ifRunning s k = .next s') : s.halted = false ∧ k = .next s' := by
  unfold ifRunning at h
  split at h
  · cases h
  · rename_i hh
    exact ⟨by simpa using hh, h⟩

theorem onTimer_of_addresses (h : Addresses s u) (k : TimerUnit → Out) : onTimer s k = k u := by
  simp [onTimer, ifRunning_of_not_halted h.1, selected, h.2]

/-- A next state of an operation on a unit comes from the addressed unit. -/
theorem onTimer_next {k : TimerUnit → Out} (h : onTimer s k = .next s') :
    ∃ u, Addresses s u ∧ k u = .next s' := by
  obtain ⟨hh, h⟩ := ifRunning_next h
  split at h
  · exact ⟨_, ⟨hh, ‹_›⟩, h⟩
  · cases h

theorem plainRead_of_addresses (h : Addresses s u) (value : Timer → Byte) :
    plainRead s value = .next (onlyReturns s (some (value u.regs))) :=
  onTimer_of_addresses h _

theorem busRead_of_addresses (h : Addresses s u) (value : Int → Timer → Byte) (after : Int → Timer → Timer) :
    busRead s value after =
      .next (unitChanged s u (after s.now u.regs) (some (value s.now u.regs))) :=
  onTimer_of_addresses h _

theorem busWrite_of_addresses (h : Addresses s u) (after : TimerParams → Int → Timer → Timer) :
    busWrite s after = .next (unitChanged s u (after u.params s.now u.regs) none) :=
  onTimer_of_addresses h _

theorem onCpu_of_not_halted (h : s.halted = false) (f : Cpu → Cpu) :
    onCpu s f = .next (cpuChanged s (f s.cpu)) :=
  ifRunning_of_not_halted h _

/-- Writing back what a unit already holds leaves the units as they were. -/
theorem set_same (h : Addresses s u) : s.timers.set s.sel { u with regs := u.regs } = s.timers := by
  obtain ⟨hlt, he⟩ := List.getElem?_eq_some_iff.1 h.2
  have hu : { u with regs := u.regs } = s.timers[s.sel] := he.symm
  rw [hu]
  exact List.set_getElem_self hlt

/-- The state whose addressed unit is written back is the state. -/
theorem unitChanged_same (h : Addresses s u) (r : Option Byte) :
    unitChanged s u u.regs r = onlyReturns s r := by
  simp only [unitChanged, onlyReturns, set_same h]

/-- The addressed unit of the changed state. -/
theorem addresses_unitChanged (h : Addresses s u) (t : Timer) (r : Option Byte) :
    Addresses (unitChanged s u t r) { u with regs := t } := by
  refine ⟨h.1, ?_⟩
  obtain ⟨hlt, -⟩ := List.getElem?_eq_some_iff.1 h.2
  simp [hlt]

/-- A unit of the changed state: the addressed one has the new registers, every other is the same. -/
theorem unitAt_unitChanged (h : Addresses s u) (t : Timer) (r : Option Byte) (k : Nat) :
    unitAt (unitChanged s u t r) k = if k = s.sel then some { u with regs := t } else unitAt s k := by
  obtain ⟨hlt, -⟩ := List.getElem?_eq_some_iff.1 h.2
  by_cases hk : k = s.sel
  · subst hk
    simp [unitAt, hlt]
  · simp [unitAt, Ne.symm hk, hk]

end Sys2Proof.Machine
end

