-- ==== Sys2Proof/Laws/Exec.lean ====
section
/-! SUPPORT. What `exec` can do, said once: the 32 bus operations as one function on the addressed unit, and the
inversion of a next state. -/

namespace Sys2Proof.Machine

/-- The unit after a bus operation and the byte it returns; none for an event. -/
def afterBus (i : Instr) (p : TimerParams) (now : Int) (t : Timer) : Option (Timer × Option Byte) :=
  match i with
  | .rdCra => some (t, some t.cra)
  | .rdCrb => some (t, some t.crb)
  | .rdCrc => some (t, some t.crc)
  | .rdRsv3 => some (t, some 0)
  | .rdCntl => some ({ t with tempHigh := highByte (currentCount t now) }, some (lowByte (currentCount t now)))
  | .rdCnth => some (t, some t.tempHigh)
  | .rdIcrl => some ({ t with tempHigh := highByte t.icr }, some (lowByte t.icr))
  | .rdIcrh => some (t, some t.tempHigh)
  | .rdOcral => some (t, some (lowByte t.ocra))
  | .rdOcrah => some (t, some (highByte t.ocra))
  | .rdOcrbl => some (t, some (lowByte t.ocrb))
  | .rdOcrbh => some (t, some (highByte t.ocrb))
  | .rdOcrcl => some (t, some (lowByte t.ocrc))
  | .rdOcrch => some (t, some (highByte t.ocrc))
  | .rdImsk => some (t, some t.imsk)
  | .rdIfr => some (t, some t.ifr)
  | .wrCra v => some (writeCra v p now t, none)
  | .wrCrb v => some (writeCrb v p now t, none)
  | .wrCrc v => some (writeCrc v p now t, none)
  | .wrRsv3 _ => some (t, none)
  | .wrCntl v => some (writeCntl v p now t, none)
  | .wrCnth v => some ({ t with tempHigh := v }, none)
  | .wrIcrl v => some (writeIcrl v p now t, none)
  | .wrIcrh v => some (if modeClass p t = .ctcIcr then { t with tempHigh := v } else t, none)
  | .wrOcral v => some (rearm p now { t with ocra := withLow t.ocra v }, none)
  | .wrOcrah v => some (rearm p now { t with ocra := withHigh t.ocra v }, none)
  | .wrOcrbl v => some (rearm p now { t with ocrb := withLow t.ocrb v }, none)
  | .wrOcrbh v => some (rearm p now { t with ocrb := withHigh t.ocrb v }, none)
  | .wrOcrcl v => some (rearm p now { t with ocrc := withLow t.ocrc v }, none)
  | .wrOcrch v => some (rearm p now { t with ocrc := withHigh t.ocrc v }, none)
  | .wrImsk v => some (rearm p now { t with imsk := v }, none)
  | .wrIfr v => some (ackFlags p v t, none)
  | .alarmFire | .decisionPoint | .cpuReset | .envSetI _ | .envReti | .envResetReq => none

variable {i : Instr} {s s' : State} {u : TimerUnit}

/-- A bus operation on an addressed unit changes that unit and returns its byte. -/
theorem exec_bus (h : Addresses s u) {t : Timer} {r : Option Byte}
    (hb : afterBus i u.params s.now u.regs = some (t, r)) : exec i s = .next (unitChanged s u t r) := by
  cases i <;> simp only [afterBus, Option.some.injEq, Prod.mk.injEq, reduceCtorEq] at hb <;>
    obtain ⟨rfl, rfl⟩ := hb <;>
    simp only [exec,
    execRdCra, execWrCra, execRdCrb, execWrCrb, execRdCrc, execWrCrc, execRdRsv3, execWrRsv3, execRdCntl,
    execWrCntl, execRdCnth, execWrCnth, execRdIcrl, execWrIcrl, execRdIcrh, execWrIcrh, execRdOcral,
    execWrOcral, execRdOcrah, execWrOcrah, execRdOcrbl, execWrOcrbl, execRdOcrbh, execWrOcrbh,
    execRdOcrcl, execWrOcrcl, execRdOcrch, execWrOcrch, execRdImsk, execWrImsk, execRdIfr, execWrIfr,
    plainRead_of_addresses h, busRead_of_addresses h, busWrite_of_addresses h, unitChanged_same h]

/-- The bus operations: those that are no event. -/
theorem afterBus_isSome (i : Instr) (p now t) :
    (∃ r, afterBus i p now t = some r) ∨ i = .alarmFire ∨ i = .decisionPoint ∨ i = .cpuReset ∨
      (∃ b, i = .envSetI b) ∨ i = .envReti ∨ i = .envResetReq := by
  cases i <;> simp [afterBus]

/-- A bus operation that gives a next state has an addressed unit. -/
theorem exec_bus_next (h : exec i s = .next s') (hi : ∀ p now t, afterBus i p now t ≠ none) :
    ∃ u, Addresses s u := by
  cases i <;> first
    | exact (onTimer_next h).imp fun _ x => x.1
    | exact absurd rfl (hi TimerParams.vectors 0 (Timer.atReset 0))

/-- An expiry of a due alarm. -/
theorem exec_alarmFire (h : Addresses s u) {a : Alarm} (ha : u.regs.alarm = some a) (hd : a.deadline ≤ s.now) :
    exec .alarmFire s = .next
      { unitChanged s u (rearm u.params s.now (raiseFlags u.params s.now a.kind u.regs s.cpu.pending).1) none with
        cpu := { s.cpu with pending := (raiseFlags u.params s.now a.kind u.regs s.cpu.pending).2 } } := by
  show execAlarmFire s = _
  rw [execAlarmFire, onTimer_of_addresses h]
  simp only [ha, Int.not_lt.2 hd, if_false]
  rfl

/-- A next state of ALARM_FIRE comes from a due alarm of the addressed unit. -/
theorem exec_alarmFire_next (h : exec .alarmFire s = .next s') :
    ∃ u a, Addresses s u ∧ u.regs.alarm = some a ∧ a.deadline ≤ s.now := by
  obtain ⟨u, hu, h⟩ := onTimer_next h
  split at h
  · cases h
  · split at h
    · cases h
    · exact ⟨u, _, hu, ‹_›, Int.not_lt.1 ‹_›⟩

theorem exec_decisionPoint (h : s.halted = false) :
    exec .decisionPoint s = .next (cpuChanged s (decisionPoint s.params s.cpu)) :=
  onCpu_of_not_halted h _

theorem exec_envSetI (h : s.halted = false) (b : Bool) :
    exec (.envSetI b) s = .next (cpuChanged s { s.cpu with I := b }) := by
  simp only [exec, execEnvSetI, onCpu_of_not_halted h]

theorem exec_envResetReq (h : s.halted = false) :
    exec .envResetReq s = .next (cpuChanged s { s.cpu with resetReq := true }) := by
  simp only [exec, execEnvResetReq, onCpu_of_not_halted h]

theorem exec_envReti (h : s.halted = false) {c : Cpu} (hc : returnFromInterrupt s.params s.cpu = some c) :
    exec .envReti s = .next (cpuChanged s c) := by
  show execEnvReti s = _
  rw [execEnvReti, ifRunning_of_not_halted h, hc]
  rfl

/-- A next state of ENV_RETI comes from a stack that holds a program counter. -/
theorem exec_envReti_next (h : exec .envReti s = .next s') :
    s.halted = false ∧ ∃ c, returnFromInterrupt s.params s.cpu = some c := by
  obtain ⟨hh, h⟩ := ifRunning_next h
  split at h
  · exact ⟨hh, _, ‹_›⟩
  · cases h

theorem exec_cpuReset (h : s.halted = false) :
    exec .cpuReset s = .next
      { s with
        timers := s.timers.map fun u => { u with regs := resetTimer s.now u.regs }
        cpu := { s.cpu with pending := s.cpu.pending.map fun _ => false, resetReq := false, I := false }
        result := none } :=
  ifRunning_of_not_halted h _

/-- Everything `exec` can do when it answers a next state: a bus operation changes the addressed unit; an expiry
changes it and the pending bitmap; an event of the CPU side changes that side; a reset changes every unit. -/
theorem exec_next (h : exec i s = .next s') : s.halted = false ∧
    ((∃ u t r, Addresses s u ∧ afterBus i u.params s.now u.regs = some (t, r) ∧ s' = unitChanged s u t r) ∨
     (∃ u a, i = .alarmFire ∧ Addresses s u ∧ u.regs.alarm = some a ∧ a.deadline ≤ s.now ∧
        s' = { unitChanged s u (rearm u.params s.now (raiseFlags u.params s.now a.kind u.regs s.cpu.pending).1) none with
          cpu := { s.cpu with pending := (raiseFlags u.params s.now a.kind u.regs s.cpu.pending).2 } }) ∨
     (i = .decisionPoint ∧ s' = cpuChanged s (decisionPoint s.params s.cpu)) ∨
     (∃ b, i = .envSetI b ∧ s' = cpuChanged s { s.cpu with I := b }) ∨
     (∃ c, i = .envReti ∧ returnFromInterrupt s.params s.cpu = some c ∧ s' = cpuChanged s c) ∨
     (i = .envResetReq ∧ s' = cpuChanged s { s.cpu with resetReq := true }) ∨
     (i = .cpuReset ∧ s' =
        { s with
          timers := s.timers.map fun u => { u with regs := resetTimer s.now u.regs }
          cpu := { s.cpu with pending := s.cpu.pending.map fun _ => false, resetReq := false, I := false }
          result := none })) := by
  have hh : s.halted = false := by
    cases i <;> exact (ifRunning_next h).1
  refine ⟨hh, ?_⟩
  have eq_of {x : State} (hx : exec i s = .next x) : s' = x := by
    rw [h] at hx
    cases hx
    rfl
  rcases afterBus_isSome i TimerParams.vectors 0 (Timer.atReset 0) with
    ⟨_, hb⟩ | rfl | rfl | rfl | ⟨b, rfl⟩ | rfl | rfl
  · have hall : ∀ p now t, afterBus i p now t ≠ none := by
      intro p now t
      cases i <;> simp [afterBus] at hb ⊢
    obtain ⟨u, hu⟩ := exec_bus_next h hall
    obtain ⟨⟨t, r⟩, htr⟩ := Option.ne_none_iff_exists'.1 (hall u.params s.now u.regs)
    exact .inl ⟨u, t, r, hu, htr, eq_of (exec_bus hu htr)⟩
  · obtain ⟨u, a, hu, ha, hd⟩ := exec_alarmFire_next h
    exact .inr (.inl ⟨u, a, rfl, hu, ha, hd, eq_of (exec_alarmFire hu ha hd)⟩)
  · exact .inr (.inr (.inl ⟨rfl, eq_of (exec_decisionPoint hh)⟩))
  · exact .inr (.inr (.inr (.inr (.inr (.inr ⟨rfl, eq_of (exec_cpuReset hh)⟩)))))
  · exact .inr (.inr (.inr (.inl ⟨b, rfl, eq_of (exec_envSetI hh b)⟩)))
  · obtain ⟨-, c, hc⟩ := exec_envReti_next h
    exact .inr (.inr (.inr (.inr (.inl ⟨c, rfl, hc, eq_of (exec_envReti hh hc)⟩))))
  · exact .inr (.inr (.inr (.inr (.inr (.inl ⟨rfl, eq_of (exec_envResetReq hh)⟩)))))

end Sys2Proof.Machine
end

