-- ==== Sys2Proof/Laws/Timer.lean ====
section
/-! SUPPORT. What the shared operations on one timer unit can do, said once: Rearm, SetFlag, the write-1-to-clear loop,
and the counter. -/

namespace Sys2Proof.Machine

/-! ### Rearm writes the alarm and the diagnostics only -/

theorem rearm_eq (p now t) :
    rearm p now t = { t with alarm := (rearm p now t).alarm, diag := (rearm p now t).diag } := by
  unfold rearm
  split
  · rfl
  · split <;> rfl

theorem rearm_stopped {p now t} (h : t.periodNs = 0) : rearm p now t = { t with alarm := none } := by
  simp [rearm, h]

theorem rearm_pwm {p now t} (h : 0 < t.periodNs) (hm : modeClass p t = .pwm) :
    rearm p now t = { t with alarm := none, diag := t.diag ++ [⟨.pwmMode, now⟩] } := by
  simp [rearm, h.ne', hm, addDiag]

theorem rearm_running {p now t} (h : 0 < t.periodNs) (hm : modeClass p t ≠ .pwm) :
    rearm p now t = { t with alarm := some (nextAlarm p now t) } := by
  simp [rearm, h.ne', hm]

@[simp] theorem rearm_cra (p now t) : (rearm p now t).cra = t.cra := by rw [rearm_eq]
@[simp] theorem rearm_crb (p now t) : (rearm p now t).crb = t.crb := by rw [rearm_eq]
@[simp] theorem rearm_crc (p now t) : (rearm p now t).crc = t.crc := by rw [rearm_eq]
@[simp] theorem rearm_tempHigh (p now t) : (rearm p now t).tempHigh = t.tempHigh := by rw [rearm_eq]
@[simp] theorem rearm_icr (p now t) : (rearm p now t).icr = t.icr := by rw [rearm_eq]
@[simp] theorem rearm_ocra (p now t) : (rearm p now t).ocra = t.ocra := by rw [rearm_eq]
@[simp] theorem rearm_ocrb (p now t) : (rearm p now t).ocrb = t.ocrb := by rw [rearm_eq]
@[simp] theorem rearm_ocrc (p now t) : (rearm p now t).ocrc = t.ocrc := by rw [rearm_eq]
@[simp] theorem rearm_imsk (p now t) : (rearm p now t).imsk = t.imsk := by rw [rearm_eq]
@[simp] theorem rearm_ifr (p now t) : (rearm p now t).ifr = t.ifr := by rw [rearm_eq]
@[simp] theorem rearm_freqHz (p now t) : (rearm p now t).freqHz = t.freqHz := by rw [rearm_eq]
@[simp] theorem rearm_periodNs (p now t) : (rearm p now t).periodNs = t.periodNs := by rw [rearm_eq]
@[simp] theorem rearm_epoch (p now t) : (rearm p now t).epoch = t.epoch := by rw [rearm_eq]
@[simp] theorem rearm_line (p now t) : (rearm p now t).line = t.line := by rw [rearm_eq]

/-- Rearm appends no diagnostic, or the one of R214. -/
theorem rearm_diag (p now t) :
    (rearm p now t).diag = t.diag ∨ (rearm p now t).diag = t.diag ++ [⟨.pwmMode, now⟩] := by
  unfold rearm
  split
  · exact .inl rfl
  · split
    · exact .inr rfl
    · exact .inl rfl

@[simp] theorem rearm_modeClass (p now t) : modeClass p (rearm p now t) = modeClass p t := by
  rw [rearm_eq]
  rfl

@[simp] theorem rearm_elapsedTicks (p now t τ) : elapsedTicks (rearm p now t) τ = elapsedTicks t τ := by
  simp [elapsedTicks]

@[simp] theorem rearm_currentCount (p now t τ) : currentCount (rearm p now t) τ = currentCount t τ := by
  simp [currentCount]

/-- The alarm Rearm computes does not depend on what it writes. -/
@[simp] theorem rearm_nextAlarm (p now t τ) : nextAlarm p τ (rearm p now t) = nextAlarm p τ t := by
  rw [rearm_eq]
  rfl

/-- An armed alarm after Rearm comes from a running supported mode. -/
theorem rearm_alarm_some {p now t a} (h : (rearm p now t).alarm = some a) :
    0 < t.periodNs ∧ modeClass p t ≠ .pwm ∧ a = nextAlarm p now t := by
  unfold rearm at h
  split at h
  · cases h
  · split at h
    · cases h
    · exact ⟨Nat.pos_of_ne_zero ‹_›, ‹_›, (Option.some.inj h).symm⟩

/-! ### Flags and lines -/

@[simp] theorem Lines.get_set (l : Lines) (b : Bool) (x y : Source) :
    (l.set b x).get y = if y = x then b else l.get y := by
  cases x <;> cases y <;> rfl

theorem bitIndex_lt (p : TimerParams) (x : Source) : bitIndex p x < 8 := by
  cases x <;> exact Fin.isLt _

/-- One bit of a byte. -/
theorem getLsbD_one_shiftLeft {n j : Nat} (hn : n < 8) : (1#8 <<< n).getLsbD j = decide (j = n) := by
  have hd : ∀ n j : Fin 8, (1#8 <<< n.val).getLsbD j.val = decide (j.val = n.val) := by decide
  by_cases hj : j < 8
  · exact hd ⟨n, hn⟩ ⟨j, hj⟩
  · simp [BitVec.getLsbD_of_ge _ _ (Nat.not_lt.1 hj), show j ≠ n by omega]

theorem getLsbD_setBit (p : TimerParams) (b : Byte) (x : Source) (j : Nat) :
    (setBit p b x).getLsbD j = (b.getLsbD j || decide (j = bitIndex p x)) := by
  rw [setBit, BitVec.getLsbD_or, getLsbD_one_shiftLeft (bitIndex_lt p x)]

theorem getLsbD_clearBit (p : TimerParams) (b : Byte) (x : Source) (j : Nat) :
    (clearBit p b x).getLsbD j = (b.getLsbD j && !decide (j = bitIndex p x)) := by
  rw [clearBit, BitVec.getLsbD_and, BitVec.getLsbD_not, getLsbD_one_shiftLeft (bitIndex_lt p x)]
  by_cases hj : j < 8
  · simp [hj]
  · simp [BitVec.getLsbD_of_ge _ _ (Nat.not_lt.1 hj)]

/-- With distinct positions a position names its source (D1). -/
theorem bitIndex_injective {p : TimerParams} (h : p.bitPositions.Nodup) {x y : Source} :
    bitIndex p x = bitIndex p y ↔ x = y := by
  simp only [TimerParams.bitPositions, List.nodup_cons, List.mem_cons, not_or, List.not_mem_nil,
    Fin.ext_iff] at h
  refine ⟨fun hxy => ?_, fun hxy => hxy ▸ rfl⟩
  cases x <;> cases y <;> first | rfl | (simp only [bitIndex] at hxy; omega)

/-- SetFlag under a condition writes `ifr`, `line` and the pending bitmap only. -/
theorem setFlagIf_timer (c p x tp) :
    (setFlagIf c p x tp).1 =
      { tp.1 with ifr := (setFlagIf c p x tp).1.ifr, line := (setFlagIf c p x tp).1.line } := by
  cases c <;> rfl

theorem setFlagIf_flag (c p x tp) (j : Nat) :
    (setFlagIf c p x tp).1.ifr.getLsbD j = (tp.1.ifr.getLsbD j || (c && decide (j = bitIndex p x))) := by
  cases c
  · simp [setFlagIf]
  · simp [setFlagIf, setFlag, getLsbD_setBit]

theorem setFlagIf_line (c p x tp) (y : Source) :
    (setFlagIf c p x tp).1.line.get y = (tp.1.line.get y || (c && decide (y = x))) := by
  cases c
  · simp [setFlagIf]
  · by_cases h : y = x <;> simp [setFlagIf, setFlag, h]

@[simp] theorem setFlagIf_pending_length (c p x tp) :
    (setFlagIf c p x tp).2.length = tp.2.length := by
  cases c
  · rfl
  · simp only [setFlagIf, setFlag, if_true]
    split <;> simp [setPending]

/-- A bit of the bitmap after SetFlag: set before, or the rising edge's own. -/
theorem setFlagIf_pending (c p x tp) {i : Nat} (hi : i < tp.2.length) :
    isPending (setFlagIf c p x tp).2 i =
      (isPending tp.2 i || (c && !tp.1.line.get x && decide (irqIndex p x = i))) := by
  cases c
  · simp [setFlagIf]
  · simp only [setFlagIf, setFlag, if_true, isPending, setPending]
    cases tp.1.line.get x
    · by_cases h : irqIndex p x = i
      · simp [h, hi, List.getD_eq_getElem?_getD]
      · simp [h, List.getD_eq_getElem?_getD]
    · simp

/-- The write-1-to-clear loop writes `ifr` and `line` only. -/
theorem ackFlag_timer (p v t x) :
    ackFlag p v t x = { t with ifr := (ackFlag p v t x).ifr, line := (ackFlag p v t x).line } := by
  unfold ackFlag
  split <;> rfl

theorem ackFlag_flag (p v t x) (j : Nat) :
    (ackFlag p v t x).ifr.getLsbD j = (t.ifr.getLsbD j && !(v.getLsbD j && decide (j = bitIndex p x))) := by
  by_cases hj : j = bitIndex p x
  · subst hj
    cases hv : v.getLsbD (bitIndex p x) <;> cases ht : t.ifr.getLsbD (bitIndex p x) <;>
      simp [ackFlag, bitOf, Timer.flag, hv, ht, getLsbD_clearBit]
  · unfold ackFlag
    split <;> simp [getLsbD_clearBit, hj]

theorem ackFlag_line (p v t x) (y : Source) :
    (ackFlag p v t x).line.get y =
      (t.line.get y && !(v.getLsbD (bitIndex p y) && t.ifr.getLsbD (bitIndex p y) && decide (y = x))) := by
  by_cases hy : y = x
  · subst hy
    cases hv : v.getLsbD (bitIndex p y) <;> cases ht : t.ifr.getLsbD (bitIndex p y) <;>
      simp [ackFlag, bitOf, Timer.flag, hv, ht]
  · unfold ackFlag
    split <;> simp [hy]

theorem ackFlags_timer (p v t) :
    ackFlags p v t = { t with ifr := (ackFlags p v t).ifr, line := (ackFlags p v t).line } := by
  simp only [ackFlags, Source.all, List.foldl]
  rw [ackFlag_timer p v _ .icf, ackFlag_timer p v _ .occ, ackFlag_timer p v _ .ocb, ackFlag_timer p v _ .oca,
    ackFlag_timer p v _ .ovf]

theorem ackFlags_flag {p : TimerParams} (h : p.bitPositions.Nodup) (v t) (x : Source) :
    (ackFlags p v t).ifr.getLsbD (bitIndex p x) =
      (t.ifr.getLsbD (bitIndex p x) && !v.getLsbD (bitIndex p x)) := by
  simp only [ackFlags, Source.all, List.foldl, ackFlag_flag, bitIndex_injective h]
  cases x <;> simp

theorem ackFlags_other (p v t) {j : Nat} (h : ∀ x : Source, bitIndex p x ≠ j) :
    (ackFlags p v t).ifr.getLsbD j = t.ifr.getLsbD j := by
  simp [ackFlags, Source.all, ackFlag_flag, fun x => (h x).symm]

theorem ackFlags_line {p : TimerParams} (h : p.bitPositions.Nodup) (v t) (x : Source) :
    (ackFlags p v t).line.get x =
      (t.line.get x && !(v.getLsbD (bitIndex p x) && t.ifr.getLsbD (bitIndex p x))) := by
  simp only [ackFlags, Source.all, List.foldl, ackFlag_line, ackFlag_flag, bitIndex_injective h]
  cases x <;> simp

/-- A low line stays low, whatever the bit positions. -/
theorem ackFlags_line_low (p v t) {x : Source} (h : t.line.get x = false) :
    (ackFlags p v t).line.get x = false := by
  simp [ackFlags, Source.all, ackFlag_line, h]

/-! ### The counter -/

theorem elapsedTicks_running {t : Timer} (h : 0 < t.periodNs) (now : Int) :
    elapsedTicks t now = (now - t.epoch) / (t.periodNs : Int) := by
  simp [elapsedTicks, h.ne']

theorem currentCount_stopped {t : Timer} (h : t.periodNs = 0) (now : Int) : currentCount t now = 0 := by
  simp [currentCount, elapsedTicks, h]

/-- The counter as an integer: the elapsed ticks modulo 65536. -/
theorem currentCount_toInt (t : Timer) (now : Int) :
    ((currentCount t now).toNat : Int) = elapsedTicks t now % 65536 := by
  rw [currentCount, BitVec.toNat_ofInt, Int.toNat_of_nonneg (Int.emod_nonneg _ (by decide))]
  rfl

theorem currentCount_epoch {t : Timer} {now : Int} (h : t.epoch = now) : currentCount t now = 0 := by
  simp [currentCount, elapsedTicks, h]

/-- Whole ticks: the elapsed ticks are `k` exactly between `epoch + k * period` and one period later. -/
theorem elapsedTicks_eq_iff {t : Timer} (h : 0 < t.periodNs) (now : Int) (k : Int) :
    elapsedTicks t now = k ↔
      t.epoch + k * t.periodNs ≤ now ∧ now < t.epoch + (k + 1) * t.periodNs := by
  have hp : (0 : Int) < t.periodNs := by exact_mod_cast h
  rw [elapsedTicks_running h, Int.ediv_eq_iff_of_pos hp]
  constructor <;> rintro ⟨h1, h2⟩ <;> constructor <;> linarith

end Sys2Proof.Machine
end

