-- ==== Sys2Proof/Laws/Alarm.lean ====
section
/-! SUPPORT. What the scheduler's choice and the alarm-fire handler can do, said once. -/

namespace Sys2Proof.Machine

/-! ### The scheduler -/

/-- One `if` of R212 takes the candidate over, or leaves the best so far, which then is not above it. -/
theorem consider_cases (q k v c best) :
    (consider q k v c best = (k, v) ∧ q = true ∧ c.toNat < v.toNat ∧ v.toNat < best.2.toNat) ∨
    (consider q k v c best = best ∧ (q = true → c.toNat < v.toNat → best.2.toNat ≤ v.toNat)) := by
  unfold consider
  split
  · rename_i h
    simp [BitVec.ult] at h
    exact .inl ⟨rfl, h.1.1, h.1.2, h.2⟩
  · rename_i h
    simp [BitVec.ult] at h
    exact .inr ⟨rfl, h⟩

/-- The counter stands still for a whole tick, so that `k` ticks after the epoch it stands at `k`. -/
theorem elapsedTicks_at {t : Timer} (h : 0 < t.periodNs) (k : Int) :
    elapsedTicks t (t.epoch + k * t.periodNs) = k := by
  have : (0 : Int) < t.periodNs := by exact_mod_cast h
  rw [elapsedTicks_eq_iff h]
  constructor <;> linarith

/-- Ticks never go back. -/
theorem elapsedTicks_mono {t : Timer} {now later : Int} (h : now ≤ later) :
    elapsedTicks t now ≤ elapsedTicks t later := by
  unfold elapsedTicks
  split
  · exact le_refl _
  · exact Int.ediv_le_ediv (by omega) (by omega)

/-! ### The handler -/

/-- The sources an expiry of kind `k` at arrived tick `c` flags, as the handler tests them. -/
def hits (p : TimerParams) (t : Timer) (k : EventKind) (c : Word16) : Source → Bool
  | .ovf => k = .overflow && t.enabled p .ovf
  | .icf => k = .capture && modeClass p t = .ctcIcr && t.enabled p .icf
  | .oca => t.enabled p .oca && compareHit (resetsCounter p t k) c t.ocra
  | .ocb => t.enabled p .ocb && compareHit (resetsCounter p t k) c t.ocrb
  | .occ => t.enabled p .occ && compareHit (resetsCounter p t k) c t.ocrc

theorem resetsCounter_iff (p t k) : resetsCounter p t k = true ↔ Resets p t k := by
  simp [resetsCounter, Resets, or_assoc]

theorem hits_iff (p t k c x) : hits p t k c x = true ↔ Raises p t k c x := by
  cases x <;> simp [hits, Raises, compareHit, resetsCounter_iff, Timer.enabled, bitOf, and_comm]

/-- The unit the handler starts from: disarmed, and reset where the expiry resets the counter. -/
theorem raiseFlags_start (p : TimerParams) (t : Timer) (now : Int) (k : EventKind) :
    (if resetsCounter p t k then resetToZero now { t with alarm := none } else { t with alarm := none }) =
      { t with alarm := none, epoch := if resetsCounter p t k then now else t.epoch } := by
  split <;> rfl

/-- The handler writes the epoch, the flags, the lines and the alarm only. -/
theorem raiseFlags_timer (p now k t pending) :
    (raiseFlags p now k t pending).1 =
      { t with
        alarm := none
        epoch := if resetsCounter p t k then now else t.epoch
        ifr := (raiseFlags p now k t pending).1.ifr
        line := (raiseFlags p now k t pending).1.line } := by
  simp only [raiseFlags, raiseFlags_start]
  rw [setFlagIf_timer _ _ .occ, setFlagIf_timer _ _ .ocb, setFlagIf_timer _ _ .oca, setFlagIf_timer _ _ .icf,
    setFlagIf_timer _ _ .ovf]

theorem raiseFlags_flag {p : TimerParams} (h : p.bitPositions.Nodup) (now k t pending) (x : Source) :
    (raiseFlags p now k t pending).1.ifr.getLsbD (bitIndex p x) =
      (t.ifr.getLsbD (bitIndex p x) || hits p t k (currentCount t now) x) := by
  simp only [raiseFlags, raiseFlags_start, setFlagIf_flag, bitIndex_injective h]
  cases x <;> simp [hits]

/-- A flag register bit after the handler, whatever the bit positions: no flag is cleared. -/
theorem raiseFlags_mono (p now k t pending) {j : Nat} (h : t.ifr.getLsbD j = true) :
    (raiseFlags p now k t pending).1.ifr.getLsbD j = true := by
  simp [raiseFlags, raiseFlags_start, setFlagIf_flag, h]

/-- The flags after the handler do not depend on the pending bitmap. -/
theorem raiseFlags_ifr (p now k t pending pending') :
    (raiseFlags p now k t pending).1.ifr = (raiseFlags p now k t pending').1.ifr := by
  apply BitVec.eq_of_getLsbD_eq
  intro j _
  simp only [raiseFlags, raiseFlags_start, setFlagIf_flag]

theorem raiseFlags_other (p now k t pending) {j : Nat} (h : ∀ x : Source, bitIndex p x ≠ j) :
    (raiseFlags p now k t pending).1.ifr.getLsbD j = t.ifr.getLsbD j := by
  simp only [raiseFlags, raiseFlags_start, setFlagIf_flag]
  simp [fun x => (h x).symm]

theorem raiseFlags_line (p now k t pending) (x : Source) :
    (raiseFlags p now k t pending).1.line.get x = (t.line.get x || hits p t k (currentCount t now) x) := by
  simp only [raiseFlags, raiseFlags_start, setFlagIf_line]
  cases x <;> simp [hits]

@[simp] theorem raiseFlags_pending_length (p now k t pending) :
    (raiseFlags p now k t pending).2.length = pending.length := by
  simp [raiseFlags]

/-- A pending bit after the handler: set before, or that of a line that rises. -/
theorem raiseFlags_pending (p now k t pending) {i : Nat} (hi : i < pending.length) :
    isPending (raiseFlags p now k t pending).2 i = true ↔
      isPending pending i = true ∨
        ∃ x, hits p t k (currentCount t now) x = true ∧ t.line.get x = false ∧ irqIndex p x = i := by
  have hall : ∀ P : Source → Prop, (∃ x, P x) ↔ P .ovf ∨ P .icf ∨ P .oca ∨ P .ocb ∨ P .occ := by
    refine fun P => ⟨fun ⟨x, h⟩ => ?_, ?_⟩
    · cases x <;> simp [h]
    · rintro (h | h | h | h | h) <;> exact ⟨_, h⟩
  rw [hall]
  simp only [raiseFlags, raiseFlags_start]
  rw [setFlagIf_pending, setFlagIf_pending, setFlagIf_pending, setFlagIf_pending, setFlagIf_pending] <;>
    (try simpa using hi)
  simp only [setFlagIf_line]
  simp [hits, or_assoc, and_assoc]

end Sys2Proof.Machine
end

