-- ==== Sys2Proof/Laws/PerInstr.lean ====
section
/-! SUPPORT. Statements about every instruction as syntax, one lemma per constructor (`LAWS.json`). -/

namespace Sys2Proof.Laws.WordForm

/-- A transaction word below 0x66, of the EVT format exactly from 0x60 on (R90, R99, R100). -/
def wordOk (t : Byte) : Bool :=
  decide (t.toNat < 0x66) && decide (formatOf [t] = some (if 0x60 ≤ t.toNat then .evt else .bus))

/-- The bytes of an operation have the form of R90 and R99: one word of the right format, and at most one byte
beside it. -/
def Statement (i : Instr) : Prop :=
  i.wf = true ∧ (encode i).length ≤ 2 ∧ wordOk (encodeWord i) = true

/-- The statement from its word and its operand. -/
theorem ofWord {i : Instr} {t : Byte} (hw : wordOk t = true) (ht : encodeWord i = t)
    (ho : (encodeOperand i).length ≤ 1) : Statement i :=
  ⟨rfl, Nat.succ_le_succ ho, ht ▸ hw⟩

theorem rdCra : Statement .rdCra := ofWord (t := 0x00) (by decide) rfl (Nat.zero_le 1)
theorem wrCra (v : Byte) : Statement (.wrCra v) := ofWord (t := 0x10) (by decide) rfl (Nat.le_refl 1)
theorem rdCrb : Statement .rdCrb := ofWord (t := 0x01) (by decide) rfl (Nat.zero_le 1)
theorem wrCrb (v : Byte) : Statement (.wrCrb v) := ofWord (t := 0x11) (by decide) rfl (Nat.le_refl 1)
theorem rdCrc : Statement .rdCrc := ofWord (t := 0x02) (by decide) rfl (Nat.zero_le 1)
theorem wrCrc (v : Byte) : Statement (.wrCrc v) := ofWord (t := 0x12) (by decide) rfl (Nat.le_refl 1)
theorem rdRsv3 : Statement .rdRsv3 := ofWord (t := 0x03) (by decide) rfl (Nat.zero_le 1)
theorem wrRsv3 (v : Byte) : Statement (.wrRsv3 v) := ofWord (t := 0x13) (by decide) rfl (Nat.le_refl 1)
theorem rdCntl : Statement .rdCntl := ofWord (t := 0x04) (by decide) rfl (Nat.zero_le 1)
theorem wrCntl (v : Byte) : Statement (.wrCntl v) := ofWord (t := 0x14) (by decide) rfl (Nat.le_refl 1)
theorem rdCnth : Statement .rdCnth := ofWord (t := 0x05) (by decide) rfl (Nat.zero_le 1)
theorem wrCnth (v : Byte) : Statement (.wrCnth v) := ofWord (t := 0x15) (by decide) rfl (Nat.le_refl 1)
theorem rdIcrl : Statement .rdIcrl := ofWord (t := 0x06) (by decide) rfl (Nat.zero_le 1)
theorem wrIcrl (v : Byte) : Statement (.wrIcrl v) := ofWord (t := 0x16) (by decide) rfl (Nat.le_refl 1)
theorem rdIcrh : Statement .rdIcrh := ofWord (t := 0x07) (by decide) rfl (Nat.zero_le 1)
theorem wrIcrh (v : Byte) : Statement (.wrIcrh v) := ofWord (t := 0x17) (by decide) rfl (Nat.le_refl 1)
theorem rdOcral : Statement .rdOcral := ofWord (t := 0x08) (by decide) rfl (Nat.zero_le 1)
theorem wrOcral (v : Byte) : Statement (.wrOcral v) := ofWord (t := 0x18) (by decide) rfl (Nat.le_refl 1)
theorem rdOcrah : Statement .rdOcrah := ofWord (t := 0x09) (by decide) rfl (Nat.zero_le 1)
theorem wrOcrah (v : Byte) : Statement (.wrOcrah v) := ofWord (t := 0x19) (by decide) rfl (Nat.le_refl 1)
theorem rdOcrbl : Statement .rdOcrbl := ofWord (t := 0x0a) (by decide) rfl (Nat.zero_le 1)
theorem wrOcrbl (v : Byte) : Statement (.wrOcrbl v) := ofWord (t := 0x1a) (by decide) rfl (Nat.le_refl 1)
theorem rdOcrbh : Statement .rdOcrbh := ofWord (t := 0x0b) (by decide) rfl (Nat.zero_le 1)
theorem wrOcrbh (v : Byte) : Statement (.wrOcrbh v) := ofWord (t := 0x1b) (by decide) rfl (Nat.le_refl 1)
theorem rdOcrcl : Statement .rdOcrcl := ofWord (t := 0x0c) (by decide) rfl (Nat.zero_le 1)
theorem wrOcrcl (v : Byte) : Statement (.wrOcrcl v) := ofWord (t := 0x1c) (by decide) rfl (Nat.le_refl 1)
theorem rdOcrch : Statement .rdOcrch := ofWord (t := 0x0d) (by decide) rfl (Nat.zero_le 1)
theorem wrOcrch (v : Byte) : Statement (.wrOcrch v) := ofWord (t := 0x1d) (by decide) rfl (Nat.le_refl 1)
theorem rdImsk : Statement .rdImsk := ofWord (t := 0x20) (by decide) rfl (Nat.zero_le 1)
theorem wrImsk (v : Byte) : Statement (.wrImsk v) := ofWord (t := 0x30) (by decide) rfl (Nat.le_refl 1)
theorem rdIfr : Statement .rdIfr := ofWord (t := 0x40) (by decide) rfl (Nat.zero_le 1)
theorem wrIfr (v : Byte) : Statement (.wrIfr v) := ofWord (t := 0x50) (by decide) rfl (Nat.le_refl 1)
theorem alarmFire : Statement .alarmFire := ofWord (t := 0x60) (by decide) rfl (Nat.zero_le 1)
theorem decisionPoint : Statement .decisionPoint := ofWord (t := 0x61) (by decide) rfl (Nat.zero_le 1)
theorem cpuReset : Statement .cpuReset := ofWord (t := 0x62) (by decide) rfl (Nat.zero_le 1)
theorem envSetI (b : Bool) : Statement (.envSetI b) := ofWord (t := 0x63) (by decide) rfl (Nat.le_refl 1)
theorem envReti : Statement .envReti := ofWord (t := 0x64) (by decide) rfl (Nat.zero_le 1)
theorem envResetReq : Statement .envResetReq := ofWord (t := 0x65) (by decide) rfl (Nat.zero_le 1)

end Sys2Proof.Laws.WordForm
end

