-- ==== Sys2Proof/Laws/Step.lean ====
section
/-! SUPPORT. What `step` can do, said once: which operation comes next, and the inversion of a next state. -/

namespace Sys2Proof.Machine

variable {s s' : State}

theorem mem_armedAlarms (now : Int) (k : Nat) (us : List TimerUnit) (j : Nat) (x : Int) :
    (j, x) ∈ armedAlarms now k us ↔
      ∃ i u a, us[i]? = some u ∧ j = k + i ∧ u.regs.alarm = some a ∧ x = fireTime now a := by
  induction us generalizing k with
  | nil => simp [armedAlarms]
  | cons u us ih =>
    have hcons : (∃ i u' a, (u :: us)[i]? = some u' ∧ j = k + i ∧ u'.regs.alarm = some a ∧ x = fireTime now a) ↔
        (∃ a, j = k ∧ u.regs.alarm = some a ∧ x = fireTime now a) ∨
        ∃ i u' a, us[i]? = some u' ∧ j = k + 1 + i ∧ u'.regs.alarm = some a ∧ x = fireTime now a := by
      constructor
      · rintro ⟨i, u', a, h1, h2, h3, h4⟩
        cases i with
        | zero =>
          cases h1
          exact .inl ⟨a, h2, h3, h4⟩
        | succ i => exact .inr ⟨i, u', a, h1, by omega, h3, h4⟩
      · rintro (⟨a, h2, h3, h4⟩ | ⟨i, u', a, h1, h2, h3, h4⟩)
        · exact ⟨0, u, a, rfl, h2, h3, h4⟩
        · exact ⟨i + 1, u', a, h1, by omega, h3, h4⟩
    rw [hcons]
    unfold armedAlarms
    split <;> rename_i ha
    · rw [List.mem_cons, ih]
      simp [ha]
    · rw [ih]
      simp [ha]

theorem earliest_none {l : List (Nat × Int)} (h : earliest l = none) : l = [] := by
  cases l with
  | nil => rfl
  | cons a l =>
    unfold earliest at h
    split at h
    · cases h
    · split at h <;> cases h

/-- The earliest pair is one of them, and no later than any. -/
theorem earliest_some {l : List (Nat × Int)} {x : Nat × Int} (h : earliest l = some x) :
    x ∈ l ∧ ∀ y ∈ l, x.2 ≤ y.2 := by
  induction l generalizing x with
  | nil => cases h
  | cons a l ih =>
    unfold earliest at h
    split at h
    · rename_i hn
      cases h
      simp [earliest_none hn]
    · rename_i y hy
      obtain ⟨h1, h2⟩ := ih hy
      split at h <;> cases h
      · refine ⟨List.mem_cons_of_mem _ h1, fun z hz => ?_⟩
        rcases List.mem_cons.1 hz with rfl | hz
        · omega
        · exact h2 z hz
      · refine ⟨List.mem_cons_self, fun z hz => ?_⟩
        rcases List.mem_cons.1 hz with rfl | hz
        · omega
        · have := h2 z hz
          omega

theorem nextExpiry_none (h : nextExpiry s = none) {k : Nat} {u : TimerUnit} (hu : unitAt s k = some u) :
    u.regs.alarm = none := by
  by_contra hc
  obtain ⟨a, ha⟩ := Option.ne_none_iff_exists'.1 hc
  have hm := (mem_armedAlarms s.now 0 s.timers k (fireTime s.now a)).2 ⟨k, u, a, hu, by simp, ha, rfl⟩
  rw [earliest_none h] at hm
  cases hm

/-- The alarm that expires next is an armed one, and no armed one expires before it. -/
theorem nextExpiry_some {k : Nat} {x : Int} (h : nextExpiry s = some (k, x)) :
    (∃ u a, unitAt s k = some u ∧ u.regs.alarm = some a ∧ x = fireTime s.now a) ∧
    ∀ (j : Nat) (u : TimerUnit) (a : Alarm), unitAt s j = some u → u.regs.alarm = some a → x ≤ fireTime s.now a := by
  obtain ⟨hm, hle⟩ := earliest_some h
  obtain ⟨i, u, a, h3, h4, h5, h6⟩ := (mem_armedAlarms _ _ _ _ _).1 hm
  refine ⟨⟨u, a, ?_, h5, h6⟩, fun j u a hu ha => ?_⟩
  · rw [h4, Nat.zero_add]
    exact h3
  · exact hle _ ((mem_armedAlarms s.now 0 s.timers j (fireTime s.now a)).2 ⟨j, u, a, hu, by simp, ha, rfl⟩)

theorem nextOperation_expiry {k : Nat} {x : Int} (h : nextOperation s = .expiry k x) :
    nextExpiry s = some (k, x) := by
  unfold nextOperation at h
  split at h
  · cases h
  · cases h
    assumption
  · cases h
  · split at h <;> cases h
    assumption

/-- A transaction that comes next is the first presented, and no alarm expires before it. -/
theorem nextOperation_transaction {t : Transaction} {rest : List Transaction}
    (h : nextOperation s = .transaction t rest) :
    s.inputs = t :: rest ∧
    ∀ (k : Nat) (u : TimerUnit) (a : Alarm), unitAt s k = some u → u.regs.alarm = some a →
      t.now ≤ fireTime s.now a := by
  unfold nextOperation at h
  split at h
  · cases h
  · cases h
  · rename_i h1 h2
    cases h
    exact ⟨h1, fun k u a hu ha => absurd (nextExpiry_none h2 hu) (by simp [ha])⟩
  · rename_i h1 h2
    split at h <;> cases h
    rename_i hc
    refine ⟨h1, fun k u a hu ha => ?_⟩
    have := (nextExpiry_some h2).2 k u a hu ha
    have : ¬ _ := fun hlt => hc (.inl hlt)
    omega

/-- Everything `step` can do when it answers a next state. -/
theorem step_next (h : step s = .next s') : s.halted = false ∧
    ((∃ k x, nextExpiry s = some (k, x) ∧ exec .alarmFire (atExpiry s k x) = .next s') ∨
     (∃ t rest, nextOperation s = .transaction t rest ∧ s.now ≤ t.now ∧
      ((∃ i tail, decode t.bytes = .ok (i, tail) ∧ exec i (accept s t rest) = .next s') ∨
       s' = raiseHostAssert (answer (accept s t rest) none)))) := by
  obtain ⟨hh, h⟩ := ifRunning_next h
  refine ⟨hh, ?_⟩
  split at h
  · cases h
  · rename_i k x hop
    exact .inl ⟨k, x, nextOperation_expiry hop, h⟩
  · rename_i t rest hop
    refine .inr ⟨t, rest, hop, ?_⟩
    unfold fetch at h
    by_cases hlt : t.now < s.now
    · simp [hlt] at h
    · refine ⟨Int.not_lt.1 hlt, ?_⟩
      simp only [hlt, if_false] at h
      split at h <;> rename_i hf
      · split at hf
        · split at hf <;> cases hf
        · split at hf <;> cases hf
          exact .inl ⟨_, _, ‹_›, h⟩
      · cases h
        exact .inr rfl
      · cases h

end Sys2Proof.Machine
end

