-- ==== Sys2Proof/Machine/Pseudo.lean ====
section
/-! DEFINITION. The pseudo-operations of `30_encoding.md` R105 as sequences of the 38 operations. They have no word of
their own and no meaning of their own: a machine sees their expansion only. -/

namespace Sys2Proof.Machine

/-- The 16-bit registers that `RD16` and `WR16` name. -/
inductive WideReg where
  | cnt
  | icr
  | ocra
  | ocrb
  | ocrc
  deriving DecidableEq, Repr

/-- The pseudo-operations (R105). -/
inductive Pseudo where
  /-- `RD16 r` -/
  | rd16 (r : WideReg)
  /-- `WR16 r, v` -/
  | wr16 (r : WideReg) (v : Word16)
  /-- `ACK X` -/
  | ack (x : Source)
  /-- `ADVANCE t` -/
  | advance (t : Int)
  deriving DecidableEq, Repr

/-- The expansion on a unit with parameters `p`: reads low byte first, writes high byte first (R105,
R173, R174). `ADVANCE` is no operation. -/
def Pseudo.expand (p : TimerParams) : Pseudo → List Instr
  | .rd16 .cnt => [.rdCntl, .rdCnth]
  | .rd16 .icr => [.rdIcrl, .rdIcrh]
  | .rd16 .ocra => [.rdOcral, .rdOcrah]
  | .rd16 .ocrb => [.rdOcrbl, .rdOcrbh]
  | .rd16 .ocrc => [.rdOcrcl, .rdOcrch]
  | .wr16 .cnt v => [.wrCnth (highByte v), .wrCntl (lowByte v)]
  | .wr16 .icr v => [.wrIcrh (highByte v), .wrIcrl (lowByte v)]
  | .wr16 .ocra v => [.wrOcrah (highByte v), .wrOcral (lowByte v)]
  | .wr16 .ocrb v => [.wrOcrbh (highByte v), .wrOcrbl (lowByte v)]
  | .wr16 .ocrc v => [.wrOcrch (highByte v), .wrOcrcl (lowByte v)]
  | .ack x => [.wrIfr (BitVec.ofNat 8 (2 ^ bitIndex p x))]
  | .advance _ => []

/-- The time of the line after a pseudo-operation at `now`: `t` after `ADVANCE t`, else unchanged (R105). -/
def Pseudo.timeAfter (now : Int) : Pseudo → Int
  | .advance t => t
  | .rd16 _ | .wr16 _ _ | .ack _ => now

/-- A listing of pseudo-operations on one unit from time `now` on, as timed operations: all parts of one carry the same
`now` (R105). -/
def listing (p : TimerParams) (now : Int) : List Pseudo → List (Int × Instr)
  | [] => []
  | op :: rest => (op.expand p).map (fun i => (now, i)) ++ listing p (op.timeAfter now) rest

end Sys2Proof.Machine
end

