-- ==== Sys2Proof/Tests/Slice0.lean ====
section
/-! SUPPORT. The model's own tests and the witnesses of the statements' hypotheses. Expected values are those of
`95_test_vectors.md` (named V40-1 and so on) or follow from the rule named. -/

namespace Sys2Proof.Tests

open Sys2Proof.Machine

/-! ### Helpers -/

/-- The parameters of the vectors. -/
abbrev params : TimerParams := TimerParams.vectors

/-- A stopped unit with the registers of reset. -/
def idle : Timer := Timer.atReset 0

/-- The start of the vectors: selector 3, epoch 0, running, no alarm computed yet. -/
def counting : Timer := { Timer.atReset 0 with crb := 3, freqHz := 250000, periodNs := 4000 }

/-- A machine with one unit holding `t`, at time `now`. -/
def machine (t : Timer) (now : Int) : State :=
  { State.reset with timers := [{ params := params, regs := t }], now := now }

/-- The unit of `machine t now`. -/
def unitOf (t : Timer) : TimerUnit := { params := params, regs := t }

/-- A machine with a given CPU side. -/
def withCpu (pending : List Nat) (resetReq i : Bool) (pc : Pc) (stack : List Byte) : State :=
  { State.reset with
    cpu := { pending := (List.range 32).map (fun k => decide (k ∈ pending)),
             resetReq := resetReq, I := i, pc := pc, stack := stack } }

/-- The registers of the unit after a next state. -/
def regs : Out → Option Timer
  | .next s => s.timers.head?.map TimerUnit.regs
  | .fault _ => none
  | .refused _ => none

/-- The byte returned by a next state. -/
def byteOf : Out → Option Byte
  | .next s => s.result
  | .fault _ => none
  | .refused _ => none

/-- The CPU side after a next state. -/
def cpuOf : Out → Option Cpu
  | .next s => some s.cpu
  | .fault _ => none
  | .refused _ => none

/-- The indices set in the bitmap after a next state. -/
def pendingOf (o : Out) : Option (List Nat) :=
  (cpuOf o).map fun c => (List.range c.pending.length).filter (isPending c.pending)

/-- A presented transaction. -/
def present (now : Int) (bytes : List Byte) : Transaction :=
  { now := now, timer := 0, width := 1, bytes := bytes, pcIn := none }

/-! ### Well-formedness: what each check refuses -/

theorem test_wf_vectors : MachineParams.vectors.wf [params] = true := by decide
theorem test_wf_no_unit : MachineParams.vectors.wf [] = false := by decide
theorem test_wf_frequency_low :
    MachineParams.vectors.wf [{ params with fBaseHz := 1023 }] = false := by decide
theorem test_wf_frequency_high :
    MachineParams.vectors.wf [{ params with fBaseHz := 1000000001 }] = false := by decide
theorem test_wf_few_sources :
    MachineParams.wf { MachineParams.vectors with nSrc := 4 } [params] = false := by decide
theorem test_wf_shared_index :
    MachineParams.vectors.wf [{ params with irqOca := 20 }] = false := by decide
theorem test_wf_index_outside :
    MachineParams.vectors.wf [{ params with irqOca := 32 }] = false := by decide
theorem test_wf_shared_bit :
    MachineParams.vectors.wf [{ params with bitIcf := 3 }] = false := by decide
theorem test_wf_shared_mode :
    MachineParams.vectors.wf [{ params with modeCtcIcr := 4 }] = false := by decide
theorem test_wf_windows_overlap :
    MachineParams.vectors.wf [{ params with winMaskAddr := 0x8D }] = false := by decide
theorem test_wf_vector_size :
    MachineParams.wf { MachineParams.vectors with vectorSize := 0 } [params] = false := by decide
theorem test_wf_transaction : (present 5 [0x00]).wf 1 5 = true := by decide
theorem test_wf_transaction_unit : (present 5 [0x00]).wf 0 5 = false := by decide
theorem test_wf_transaction_time : (present 5 [0x00]).wf 1 6 = false := by decide
theorem test_wf_transaction_width : Transaction.wf 1 5 { present 5 [0x00] with width := 2 } = false := by decide
theorem test_wf_instr : (Instr.wrCra 0xFF).wf = true := by decide

/-! ### Decoding: each word written out from R99 and R100 (`0 : space : dir : off`) -/

theorem test_decode_control_words :
    decode [0b00000000] = .ok (.rdCra, []) ∧ decode [0b00000001] = .ok (.rdCrb, []) ∧
    decode [0b00000010] = .ok (.rdCrc, []) ∧ decode [0b00000011] = .ok (.rdRsv3, []) ∧
    decode [0b00010000, 0xA5] = .ok (.wrCra 0xA5, []) ∧ decode [0b00010001, 0xA5] = .ok (.wrCrb 0xA5, []) ∧
    decode [0b00010010, 0xA5] = .ok (.wrCrc 0xA5, []) ∧ decode [0b00010011, 0xA5] = .ok (.wrRsv3 0xA5, []) :=
  ⟨rfl, rfl, rfl, rfl, rfl, rfl, rfl, rfl⟩

theorem test_decode_counter_words :
    decode [0b00000100] = .ok (.rdCntl, []) ∧ decode [0b00000101] = .ok (.rdCnth, []) ∧
    decode [0b00010100, 0xA5] = .ok (.wrCntl 0xA5, []) ∧ decode [0b00010101, 0xA5] = .ok (.wrCnth 0xA5, []) :=
  ⟨rfl, rfl, rfl, rfl⟩

theorem test_decode_capture_words :
    decode [0b00000110] = .ok (.rdIcrl, []) ∧ decode [0b00000111] = .ok (.rdIcrh, []) ∧
    decode [0b00010110, 0xA5] = .ok (.wrIcrl 0xA5, []) ∧ decode [0b00010111, 0xA5] = .ok (.wrIcrh 0xA5, []) :=
  ⟨rfl, rfl, rfl, rfl⟩

theorem test_decode_compare_words :
    decode [0b00001000] = .ok (.rdOcral, []) ∧ decode [0b00001001] = .ok (.rdOcrah, []) ∧
    decode [0b00001010] = .ok (.rdOcrbl, []) ∧ decode [0b00001011] = .ok (.rdOcrbh, []) ∧
    decode [0b00001100] = .ok (.rdOcrcl, []) ∧ decode [0b00001101] = .ok (.rdOcrch, []) ∧
    decode [0b00011000, 0xA5] = .ok (.wrOcral 0xA5, []) ∧ decode [0b00011001, 0xA5] = .ok (.wrOcrah 0xA5, []) ∧
    decode [0b00011010, 0xA5] = .ok (.wrOcrbl 0xA5, []) ∧ decode [0b00011011, 0xA5] = .ok (.wrOcrbh 0xA5, []) ∧
    decode [0b00011100, 0xA5] = .ok (.wrOcrcl 0xA5, []) ∧ decode [0b00011101, 0xA5] = .ok (.wrOcrch 0xA5, []) :=
  ⟨rfl, rfl, rfl, rfl, rfl, rfl, rfl, rfl, rfl, rfl, rfl, rfl⟩

theorem test_decode_mask_and_flag_words :
    decode [0b00100000] = .ok (.rdImsk, []) ∧ decode [0b00110000, 0xA5] = .ok (.wrImsk 0xA5, []) ∧
    decode [0b01000000] = .ok (.rdIfr, []) ∧ decode [0b01010000, 0xA5] = .ok (.wrIfr 0xA5, []) :=
  ⟨rfl, rfl, rfl, rfl⟩

theorem test_decode_event_words :
    decode [0b01100000] = .ok (.alarmFire, []) ∧ decode [0b01100001] = .ok (.decisionPoint, []) ∧
    decode [0b01100010] = .ok (.cpuReset, []) ∧ decode [0b01100011, 0b00000001] = .ok (.envSetI true, []) ∧
    decode [0b01100100] = .ok (.envReti, []) ∧ decode [0b01100101] = .ok (.envResetReq, []) :=
  ⟨rfl, rfl, rfl, rfl, rfl, rfl⟩

/-- R101 and R63: words and operands that are refused, each by its name. -/
theorem test_decode_rejects :
    decode [] = .error .noWord ∧ decode [0x80] = .error .notSevenBits ∧
    decode [0x0E] = .error .outsideMainWindow ∧ decode [0x1F, 0] = .error .outsideMainWindow ∧
    decode [0x21] = .error .outsideMaskWindow ∧ decode [0x5F, 0] = .error .outsideFlagsWindow ∧
    decode [0x66] = .error .unassignedEvent ∧ decode [0x7F] = .error .unassignedEvent ∧
    decode [0x10] = .error .missingOperand ∧ decode [0x63, 2] = .error .operandNotABit :=
  ⟨rfl, rfl, rfl, rfl, rfl, rfl, rfl, rfl, rfl, rfl⟩

/-- R64 and R99: the word a bus access at an address of a unit's windows becomes. -/
theorem test_route_windows :
    (busAccess 0 params 7 0x84 1 none).map Transaction.bytes = some [0x04] ∧
    (busAccess 0 params 7 0x8D 1 (some 9)).map Transaction.bytes = some [0x1D, 9] ∧
    (busAccess 0 params 7 0x6F 1 (some 9)).map Transaction.bytes = some [0x30, 9] ∧
    (busAccess 0 params 7 0x36 1 none).map Transaction.bytes = some [0x40] ∧
    busAccess 0 params 7 0x8E 1 none = none := by decide

/-! ### The DECIDED parameters -/

/-- D1, D2, D15: the decided values of `00_scope.md` R8. -/
theorem test_decided_values :
    Source.all.map (bitIndex params) = [0, 1, 2, 3, 5] ∧ params.modeNumbers = [0, 4, 12] ∧
    params.crcForceMask = 0xE0 := by decide

/-- D1, D2, D15: with other values, flag bits, mode classes and the diagnostic follow the parameters. -/
theorem test_other_layout :
    (setFlag { params with bitIcf := 7 } .icf idle []).1.ifr = 0x80 ∧
    ackFlags { params with bitOvf := 4 } 0x10 { idle with ifr := 0x11 } = { idle with ifr := 0x01 } ∧
    modeClass { params with modeCtcA := 5 } { idle with cra := 1, crb := 0x08 } = .ctcA ∧
    modeClass { params with modeCtcA := 5 } { idle with crb := 0x08 } = .pwm ∧
    asksForceCompare { params with crcForceMask := 0x80 } 0x40 = false := by decide

/-! ### CounterModel (V40) -/

theorem test_v40_1_2 :
    currentCount { counting with epoch := 1000 } 4999 = 0 ∧
    currentCount { counting with epoch := 1000 } 262140999 = 0xFFFE := by decide
theorem test_v40_3_4 :
    currentCount { counting with periodNs := 62 } 61 = 0 ∧ currentCount { counting with periodNs := 62 } 62 = 1 ∧
    currentCount idle 1000000000 = 0 := by decide
theorem test_v40_5 : currentCount { counting with periodNs := 64000, epoch := 7 } 4480064006 = 0x1170 := by decide
theorem test_v40_6 :
    (writeRaw 50000 0x1234 counting).epoch = -18590000 ∧
    currentCount (writeRaw 50000 0x1234 counting) 53999 = 0x1234 ∧
    currentCount (writeRaw 50000 0x1234 counting) 54000 = 0x1235 := by decide

/-! ### ModeController (V42) -/

theorem test_v42_modes :
    [(0x00, 0x00), (0xFC, 0xE3), (0x00, 0x08), (0x00, 0x18), (0x00, 0x10), (0x01, 0x00), (0x03, 0x18), (0x01, 0x08)].map
      (fun r : Byte × Byte => modeClass params { idle with cra := r.1, crb := r.2 }) =
    [.normal, .normal, .ctcA, .ctcIcr, .pwm, .pwm, .pwm, .pwm] := by decide

theorem test_v42_periods :
    [0, 1, 2, 3, 4, 5, 6, 7].map (fun cs => (freqOf 8000000 cs, periodOf 8000000 cs)) =
      [(0, 0), (8000000, 125), (1000000, 1000), (125000, 8000), (31250, 32000), (7812, 128008), (0, 0), (0, 0)] ∧
    (freqOf 1000 5, periodOf 1000 5) = (0, 0) := by decide

/-! ### AlarmScheduler (V43) -/

theorem test_v43_6_compare_c :
    (rearm params 40000 { counting with ocrb := 300, ocrc := 200, imsk := 0x0C }).alarm = some ⟨.compareC, 200, 800000⟩ ∧
    (rearm params 600000 { counting with ocrb := 100, ocrc := 200, imsk := 0x0C }).alarm = some ⟨.compareC, 200, 800000⟩ ∧
    (rearm params 600000 { counting with ocrb := 200, ocrc := 100, imsk := 0x08 }).alarm =
      some ⟨.overflow, 0xFFFF, 262140000⟩ := by decide

theorem test_v43_ties :
    (rearm params 0 { counting with ocra := 200, ocrb := 200, ocrc := 200, imsk := 0x0E }).alarm =
      some ⟨.compareA, 200, 800000⟩ ∧
    (rearm params 0 { counting with ocrb := 200, ocrc := 200, imsk := 0x0C }).alarm = some ⟨.compareB, 200, 800000⟩ ∧
    (rearm params 0 { counting with crb := 0x1B, icr := 1000, ocra := 1000, imsk := 0x02 }).alarm =
      some ⟨.capture, 1000, 4000000⟩ ∧
    (rearm params 0 { counting with crb := 0x0B, ocra := 0xFFFF }).alarm = some ⟨.overflow, 0xFFFF, 262140000⟩ := by decide

theorem test_v43_23_24_untruncated :
    (rearm params 262156017 { counting with ocra := 10, imsk := 0x02 }).alarm = some ⟨.compareA, 10, 262184000⟩ ∧
    (rearm params 262224000 { counting with ocra := 10, imsk := 0x02 }).alarm = some ⟨.overflow, 0xFFFF, 524284000⟩ := by
  decide

theorem test_v43_20_21 :
    rearm params 1234 { idle with imsk := 0x0F, ocra := 5 } = { idle with imsk := 0x0F, ocra := 5 } ∧
    (rearm params 0 { counting with cra := 1, imsk := 0x02, ocra := 5 }).alarm = none ∧
    (rearm params 0 { counting with cra := 1, imsk := 0x02, ocra := 5 }).diag = [⟨.pwmMode, 0⟩] := by decide

/-! ### RegisterFile, one step each (V41) -/

theorem test_rd_cra : byteOf (exec .rdCra (machine { idle with cra := 0x41 } 0)) = some 0x41 := by decide

/-- V41-1 -/
theorem test_wr_cra :
    (regs (exec (.wrCra 0x41) (machine idle 0))).map (fun t => (t.cra, t.diag)) =
      some (0x41, [⟨.comparePin, 0⟩]) := by decide

theorem test_rd_crb : byteOf (exec .rdCrb (machine { idle with crb := 0x06 } 0)) = some 0x06 := by decide

/-- V41-2 -/
theorem test_wr_crb_starts :
    (regs (exec (.wrCrb 3) (machine idle 1000))).map (fun t => (t.freqHz, t.periodNs, t.epoch, t.alarm)) =
      some (250000, 4000, 1000, some ⟨.overflow, 0xFFFF, 262141000⟩) := by decide

/-- V41-4 -/
theorem test_wr_crb_jump :
    (regs (exec (.wrCrb 2) (machine { counting with epoch := 1000 } 401000))).map
      (fun t => (t.periodNs, t.epoch, currentCount t 401000, t.alarm)) =
      some (500, 1000, 800, some ⟨.overflow, 0xFFFF, 32768500⟩) := by decide

theorem test_rd_crc : byteOf (exec .rdCrc (machine { idle with crc := 0x80 } 0)) = some 0x80 := by decide

/-- V41-6 -/
theorem test_wr_crc :
    (regs (exec (.wrCrc 0x80) (machine counting 9))).map (fun t => (t.crc, t.diag, t.alarm)) =
      some (0x80, [⟨.forceCompare, 9⟩], none) ∧
    (regs (exec (.wrCrc 0x1F) (machine counting 9))).map (fun t => (t.crc, t.diag)) = some (0x1F, []) := by decide

/-- V41-7 -/
theorem test_rsv3 :
    byteOf (exec .rdRsv3 (machine counting 0)) = some 0 ∧
    regs (exec (.wrRsv3 0xFF) (machine counting 0)) = some counting := by decide

/-- V41-8 -/
theorem test_rd_cntl :
    byteOf (exec .rdCntl (machine counting 1200000)) = some 0x2C ∧
    (regs (exec .rdCntl (machine counting 1200000))).map Timer.tempHigh = some 0x01 := by decide

theorem test_rd_cnth : byteOf (exec .rdCnth (machine { counting with tempHigh := 0x01 } 1300000000)) = some 0x01 := by
  decide

/-- V41-20 -/
theorem test_wr_cntl :
    (regs (exec (.wrCntl 0xFF) (machine { counting with tempHigh := 0xFF } 77))).map Timer.alarm =
      some (some ⟨.overflow, 0xFFFF, 77⟩) := by decide

theorem test_wr_cnth :
    regs (exec (.wrCnth 0x12) (machine counting 50000)) = some { counting with tempHigh := 0x12 } := by decide

/-- V41-10 -/
theorem test_rd_icr :
    byteOf (exec .rdIcrl (machine { idle with icr := 0x03E8 } 0)) = some 0xE8 ∧
    (regs (exec .rdIcrl (machine { idle with icr := 0x03E8 } 0))).map Timer.tempHigh = some 0x03 ∧
    byteOf (exec .rdIcrh (machine { idle with tempHigh := 0x03 } 0)) = some 0x03 := by decide

/-- V41-11 -/
theorem test_wr_icr_ignored :
    regs (exec (.wrIcrh 3) (machine { idle with tempHigh := 0x55 } 0)) = some { idle with tempHigh := 0x55 } ∧
    regs (exec (.wrIcrl 0xE8) (machine { idle with tempHigh := 0x55 } 0)) = some { idle with tempHigh := 0x55 } := by
  decide

/-- V41-12 -/
theorem test_wr_icr :
    (regs (exec (.wrIcrh 3) (machine { idle with crb := 0x18 } 0))).map Timer.tempHigh = some 3 ∧
    (regs (exec (.wrIcrl 0xE8) (machine { idle with crb := 0x18, tempHigh := 3 } 0))).map Timer.icr =
      some 0x03E8 := by decide

/-- V41-13 -/
theorem test_ocra :
    (regs (exec (.wrOcrah 0x01) (machine { idle with ocra := 0x0064 } 0))).map Timer.ocra = some 0x0164 ∧
    (regs (exec (.wrOcral 0x2C) (machine { idle with ocra := 0x0164 } 0))).map Timer.ocra = some 0x012C ∧
    byteOf (exec .rdOcral (machine { idle with ocra := 0x01C8 } 0)) = some 0xC8 ∧
    byteOf (exec .rdOcrah (machine { idle with ocra := 0x01C8 } 0)) = some 0x01 := by decide

/-- V41-14 -/
theorem test_ocrb :
    (regs (exec (.wrOcrbh 0x01) (machine { idle with ocrb := 0x0064 } 0))).map Timer.ocrb = some 0x0164 ∧
    (regs (exec (.wrOcrbl 0x2C) (machine { idle with ocrb := 0x0164 } 0))).map Timer.ocrb = some 0x012C ∧
    byteOf (exec .rdOcrbl (machine { idle with ocrb := 0x01C8 } 0)) = some 0xC8 ∧
    byteOf (exec .rdOcrbh (machine { idle with ocrb := 0x01C8 } 0)) = some 0x01 := by decide

/-- R165 to R168, with the numbers of V41-13 and V41-14 -/
theorem test_ocrc :
    (regs (exec (.wrOcrch 0x01) (machine { idle with ocrc := 0x0064 } 0))).map Timer.ocrc = some 0x0164 ∧
    (regs (exec (.wrOcrcl 0x2C) (machine { idle with ocrc := 0x0164 } 0))).map Timer.ocrc = some 0x012C ∧
    byteOf (exec .rdOcrcl (machine { idle with ocrc := 0x01C8 } 0)) = some 0xC8 ∧
    byteOf (exec .rdOcrch (machine { idle with ocrc := 0x01C8 } 0)) = some 0x01 := by decide

/-- V41-15 -/
theorem test_imsk :
    (regs (exec (.wrImsk 0xFF) (machine idle 0))).map (fun t => (t.imsk, t.ifr)) = some (0xFF, 0) ∧
    byteOf (exec .rdImsk (machine { idle with imsk := 0xFF } 0)) = some 0xFF := by decide

/-- E8 -/
theorem test_rd_ifr :
    byteOf (exec .rdIfr (machine { idle with ifr := 0x02 } 0)) = some 0x02 ∧
    (regs (exec .rdIfr (machine { idle with ifr := 0x02 } 0))).map Timer.ifr = some 0x02 := by decide

/-- V41-16, V41-18 -/
theorem test_wr_ifr :
    (regs (exec (.wrIfr 2) (machine { idle with ifr := 3, line := ⟨true, true, false, false, false⟩ } 0))).map
      (fun t => (t.ifr, t.line)) = some (1, ⟨true, false, false, false, false⟩) ∧
    (regs (exec (.wrIfr 0xFF) (machine { idle with ifr := 0x2F, line := ⟨true, true, true, true, true⟩ } 0))).map
      (fun t => (t.ifr, t.line)) = some (0, ⟨false, false, false, false, false⟩) := by decide

/-! ### ALARM_FIRE (V44) -/

/-- V44-2 -/
theorem test_alarm_fire_top :
    (regs (exec .alarmFire (machine (rearm params 0 { counting with crb := 0x0B, ocra := 50, ocrb := 50, imsk := 6 }) 200000))).map
      (fun t => (t.ifr, t.epoch, t.alarm)) = some (6, 200000, some ⟨.compareA, 50, 400000⟩) ∧
    pendingOf (exec .alarmFire
      (machine (rearm params 0 { counting with crb := 0x0B, ocra := 50, ocrb := 50, imsk := 6 }) 200000)) = some [17, 18] := by
  decide

/-- V44-12, V44-14, V44-9 -/
theorem test_alarm_fire_zero_clause :
    (regs (exec .alarmFire (machine (rearm params 0 { counting with imsk := 0x0F }) 262140000))).map Timer.ifr =
      some 0x0F ∧
    (regs (exec .alarmFire (machine (rearm params 0 { counting with crb := 0x1B, icr := 1000, imsk := 0x28 }) 4000000))).map
      Timer.ifr = some 0x28 ∧
    pendingOf (exec .alarmFire (machine (rearm params 0
      { counting with ocra := 100, imsk := 2, ifr := 2, line := ⟨false, true, false, false, false⟩ }) 400000)) =
      some [] := by decide

/-! ### The CPU interrupt controller (V60) and reset (V70) -/

/-- V60-1 -/
theorem test_decision_point :
    (cpuOf (exec .decisionPoint (withCpu [17, 19] false true 0x0123 []))).map (fun c => (c.stack, c.I, c.pc)) =
      some ([0x01, 0x23], false, 34) ∧
    pendingOf (exec .decisionPoint (withCpu [17, 19] false true 0x0123 [])) = some [19] := by decide

/-- V60-4, V60-2 -/
theorem test_decision_point_reset :
    (cpuOf (exec .decisionPoint (withCpu [17] true false 0x0456 []))).map
      (fun c => (c.stack, c.resetReq, c.pc, isPending c.pending 17)) = some ([0x04, 0x56], false, 0, true) ∧
    cpuOf (exec .decisionPoint (withCpu [17] false false 0x0123 [])) =
      some (withCpu [17] false false 0x0123 []).cpu := by decide

/-- V60-7 -/
theorem test_env_reti :
    cpuOf (exec .envReti (withCpu [19] false false 34 [0x01, 0x23])) =
      some (withCpu [19] false true 0x0123 []).cpu := by decide

theorem test_env_set_i :
    cpuOf (exec (.envSetI true) (withCpu [17] false false 3 [])) = some (withCpu [17] false true 3 []).cpu := by decide

theorem test_env_reset_req :
    cpuOf (exec .envResetReq (withCpu [17] false true 3 [])) = some (withCpu [17] true true 3 []).cpu := by decide

/-- V70-1 -/
theorem test_cpu_reset :
    regs (exec .cpuReset (machine (rearm params 0
      { counting with ifr := 0x2F, line := ⟨true, true, true, true, true⟩, imsk := 0xFF, ocra := 0x1234,
                      tempHigh := 0x99, diag := [⟨.pwmMode, 1⟩] }) 5000)) =
      some { Timer.atReset 5000 with diag := [⟨.pwmMode, 1⟩] } ∧
    cpuOf (exec .cpuReset (withCpu [16, 17] true true 7 [1, 2])) = some (withCpu [] false false 7 [1, 2]).cpu := by
  decide

/-! ### The step -/

/-- The word of the opcode table runs as the first operation after reset: RD_CRB (R143). -/
theorem test_first_operation :
    byteOf (step (State.reset.withFetchWord 8 0x01)) = some 0 ∧
    regs (step (State.reset.withFetchWord 8 0x11)) = some idle := by decide

/-- Program P1 at 401000: the due alarm expires before the decision point of the same time (R76, R261). -/
theorem test_due_alarm_first :
    pendingOf (step { machine (rearm params 1000 { counting with epoch := 1000, ocra := 100, imsk := 2 }) 5000 with
      inputs := [present 401000 [0x61]] }) = some [17] := by decide

/-- V41-21 -/
theorem test_wrong_width :
    (match step { machine counting 0 with inputs := [{ present 5 [0x20] with width := 2 }] } with
      | .next s => s.halted && decide (s.timers = (machine counting 0).timers)
      | .fault _ => false
      | .refused _ => false) = true := by decide

/-! ### Witnesses: states and operands that meet the hypotheses of the statements -/

/-- Every statement with `Addresses s u`: the only unit, and the last of two. -/
theorem witness_addresses :
    Addresses (machine counting 9) (unitOf counting) ∧
    Addresses { State.construct MachineParams.vectors [params, params] 3 with sel := 1 }
      (unitOf (Timer.atReset 3)) := ⟨⟨rfl, rfl⟩, ⟨rfl, rfl⟩⟩

theorem witness_encode_inverts_decode : decode [0x63, 1, 7] = .ok (.envSetI true, [7]) := rfl

/-- The boundaries of each range of R101, and a width violation. -/
theorem witness_reserved_words :
    (∀ t ∈ ([0x0E, 0x0F, 0x1E, 0x1F, 0x21, 0x2F, 0x31, 0x3F, 0x41, 0x4F, 0x51, 0x5F, 0x66, 0x7F] : List Byte),
      t.toNat = 0x0e ∨ t.toNat = 0x0f ∨ t.toNat = 0x1e ∨ t.toNat = 0x1f ∨
        (0x21 ≤ t.toNat ∧ t.toNat ≤ 0x2f) ∨ (0x31 ≤ t.toNat ∧ t.toNat ≤ 0x3f) ∨
        (0x41 ≤ t.toNat ∧ t.toNat ≤ 0x4f) ∨ (0x51 ≤ t.toNat ∧ t.toNat ≤ 0x5f) ∨
        (0x66 ≤ t.toNat ∧ t.toNat ≤ 0x7f)) ∧
    (∃ (s : State) (x : Transaction) (t : Byte) (rest : List Byte),
      x.bytes = t :: rest ∧ t.toNat < 0x60 ∧ x.width ≠ 1 ∧ s.now ≤ x.now ∧ x.timer < s.timers.length) :=
  ⟨by decide, machine counting 0, { present 0 [0x5F] with width := 0 }, 0x5F, [], rfl, by decide, by decide,
    by decide, by decide⟩

theorem witness_counter_clauses : idle.periodNs = 0 ∧ 0 < counting.periodNs := by decide

theorem witness_lazy_count : (61 : Nat) < ({ counting with periodNs := 62 } : Timer).periodNs := by decide

theorem witness_counter_write : 0 < counting.periodNs ∧ 3999 < counting.periodNs ∧ idle.periodNs = 0 := by decide

/-- Each mode class has a timer. -/
theorem witness_mode_classes :
    modeClass params idle = .normal ∧ modeClass params { idle with crb := 0x08 } = .ctcA ∧
    modeClass params { idle with crb := 0x18 } = .ctcIcr ∧ modeClass params { idle with cra := 1 } = .pwm := by decide

theorem witness_top :
    0 < counting.periodNs ∧ effectiveTop params counting = some 0xFFFF ∧
    effectiveTop params { counting with crb := 0x0B, ocra := 50 } = some 50 ∧
    effectiveTop params { counting with crb := 0x1B, icr := 1000 } = some 1000 := by decide

/-- Each clause of the clock's update: the selectors 1 and 5, 0, 6 and 7; both directions of the epoch's rule. -/
theorem witness_clock_update :
    (((1 : Byte).toNat % 8, 1) ∈ [(1, 1), (2, 8), (3, 64), (4, 256), (5, 1024)]) ∧
    (((5 : Byte).toNat % 8, 1024) ∈ [(1, 1), (2, 8), (3, 64), (4, 256), (5, 1024)]) ∧
    (0 : Byte).toNat % 8 = 0 ∧ 6 ≤ (6 : Byte).toNat % 8 ∧ 6 ≤ (0xFF : Byte).toNat % 8 ∧
    (clockUpdate params 70000 { idle with crb := 3 }).epoch = 70000 ∧
    (clockUpdate params 70000 { counting with crb := 2 }).epoch = 0 := by decide

theorem witness_control_b :
    (3 : Byte).toNat % 8 = counting.crb.toNat % 8 ∧ (2 : Byte).toNat % 8 ≠ counting.crb.toNat % 8 := by decide

theorem witness_compare_c :
    (nextEvent params { counting with ocrc := 200, imsk := 0x08 } 10).1 = .compareC ∧
    counting.imsk.getLsbD (bitIndex params .ocb) = false ∧
    ({ counting with ocrc := 200, imsk := 0x08 } : Timer).imsk.getLsbD (bitIndex params .occ) = true ∧
    (10 : Word16).toNat < (200 : Word16).toNat := by decide

/-- Rearm and the deadline: each clause, at counter 0 and at 0xFFFF; and a later Rearm before the deadline. -/
theorem witness_rearm :
    idle.periodNs = 0 ∧ (0 < counting.periodNs ∧ modeClass params counting ≠ .pwm) ∧
    (0 < counting.periodNs ∧ modeClass params { counting with cra := 1 } = .pwm) ∧
    (rearm params 0 counting).alarm = some ⟨.overflow, 0xFFFF, 262140000⟩ ∧ currentCount counting 0 ≠ 0xFFFF ∧
    (rearm params 262141000 counting).alarm = some ⟨.overflow, 0xFFFF, 262140000⟩ ∧
    currentCount counting 262141000 = 0xFFFF ∧ (0 : Int) ≤ 262139999 ∧ (262139999 : Int) < 262140000 := by decide

theorem witness_alarm_fire :
    (machine (rearm params 0 counting) 262140000).timers[0]?.map (fun u => u.regs.alarm) =
      some (some ⟨.overflow, 0xFFFF, 262140000⟩) ∧
    Resets params counting .overflow ∧ ¬ Resets params counting .compareB ∧
    Raises params { counting with imsk := 1 } .overflow 0xFFFF .ovf :=
  ⟨by decide, .inl rfl, by simp [Resets], by decide, rfl⟩

theorem witness_alarm_not_due :
    Addresses (machine counting 0) (unitOf counting) ∧ (unitOf counting).regs.alarm = none ∧
    Addresses (machine (rearm params 0 counting) 262139999) (unitOf (rearm params 0 counting)) ∧
    (unitOf (rearm params 0 counting)).regs.alarm = some ⟨.overflow, 0xFFFF, 262140000⟩ :=
  ⟨⟨rfl, rfl⟩, rfl, ⟨rfl, rfl⟩, by decide⟩

/-- A running unit whose alarm is the one Rearm computed at time 0 meets the invariant until the alarm is due. -/
theorem inv_of_rearm {t : Timer} {a : Alarm} {now : Int} (h : 0 ≤ now) (he : t.epoch = 0)
    (hf : t.freqHz = freqOf 16000000 (clockSel t)) (hp : t.periodNs = periodOf 16000000 (clockSel t))
    (hr : 0 < t.periodNs ∧ modeClass params t ≠ .pwm) (ha : t.alarm = some a) (hn : a = nextAlarm params 0 t)
    (hc : currentCount t (max a.deadline now) = a.target) (hl : ∀ x, t.line.get x = t.ifr.getLsbD (bitIndex params x))
    (hi : t.ifr = 0) : MachineInv (machine t now) where
  units := by
    intro u hu
    obtain rfl : u = unitOf t := List.mem_singleton.1 hu
    refine ⟨show params.bitPositions.Nodup by decide, by rw [show (unitOf t).regs = t from rfl, he]; exact h, hf, hp, ?_, ?_, ?_, hl,
      fun j _ => by simp [unitOf, hi]⟩
    · simp [Timer.armed, unitOf, ha, hr]
    · intro b hb
      cases (ha.symm.trans hb)
      exact ⟨0, le_of_eq he, h, hn⟩
    · intro b hb
      cases (ha.symm.trans hb)
      exact hc
  pending_length := by simp [machine, State.reset, State.construct, Cpu.atReset]
  pc_fits := by simp [machine, State.reset, State.construct, Cpu.atReset, fitsPc, MachineParams.vectors, PcWidth.bytes]
  stack_whole := by simp [machine, State.reset, State.construct, Cpu.atReset]

/-- The CTC_A unit of V44-1, armed. -/
def topArmed : Timer := { counting with crb := 0x0B, ocra := 50, alarm := some ⟨.compareA, 50, 200000⟩ }

/-- The invariant, a due compare-A alarm in CTC_A, and the expiry that comes next. -/
theorem witness_inv_and_due :
    MachineInv (machine topArmed 200000) ∧ Addresses (machine topArmed 200000) (unitOf topArmed) ∧
    topArmed.alarm = some ⟨.compareA, 50, 200000⟩ ∧ modeClass params topArmed = .ctcA ∧
    nextOperation (machine topArmed 200000) = .expiry 0 200000 :=
  ⟨inv_of_rearm (by decide) rfl (by decide) (by decide) (by decide) rfl (by decide) (by decide)
    (by intro x; cases x <;> decide) (by decide), ⟨rfl, rfl⟩, rfl, by decide, by rfl⟩

/-- A NORMAL unit with a plain compare-A match to come. -/
def matchArmed : Timer := { counting with ocra := 100, imsk := 2, alarm := some ⟨.compareA, 100, 400000⟩ }

/-- The invariant and a due compare-A alarm in a mode other than CTC_A. -/
theorem witness_plain_match :
    MachineInv (machine matchArmed 400000) ∧ Addresses (machine matchArmed 400000) (unitOf matchArmed) ∧
    matchArmed.alarm = some ⟨.compareA, 100, 400000⟩ ∧ modeClass params matchArmed ≠ .ctcA :=
  ⟨inv_of_rearm (by decide) rfl (by decide) (by decide) (by decide) rfl (by decide) (by decide)
    (by intro x; cases x <;> decide) (by decide), ⟨rfl, rfl⟩, rfl, by decide⟩

/-- Distinct bit positions and mode numbers, and the decided numbers and mask. -/
theorem witness_layout :
    params.bitPositions.Nodup ∧ (∀ p ∈ [params], p.bitPositions.Nodup) ∧ params.modeNumbers.Nodup ∧
    params.modeNumbers = [0, 4, 12] ∧ params.crcForceMask = 0xE0 := by decide

/-- The lowest and the highest bit of no source. -/
theorem witness_bit_of_no_source : (∀ x : Source, bitIndex params x ≠ 4) ∧ ∀ x : Source, bitIndex params x ≠ 7 :=
  ⟨fun x => by cases x <;> decide, fun x => by cases x <;> decide⟩

/-- The invariant in a running PWM mode. -/
theorem witness_inv_pwm :
    MachineInv (machine { counting with cra := 1 } 0) ∧
    Addresses (machine { counting with cra := 1 } 0) (unitOf { counting with cra := 1 }) ∧
    modeClass params { counting with cra := 1 } = .pwm := by
  refine ⟨⟨?_, ?_, ?_, ?_⟩, ⟨rfl, rfl⟩, by decide⟩
  · intro u hu
    obtain rfl : u = unitOf { counting with cra := 1 } := List.mem_singleton.1 hu
    exact ⟨by decide, by decide, by decide, by decide, by decide, fun a h => (nomatch h), fun a h => (nomatch h),
      by intro x; cases x <;> decide, fun j _ => BitVec.getLsbD_zero⟩
  · decide
  · unfold fitsPc
    decide
  · decide

/-- The invariant is kept by a step that is taken: the expiry of `witness_inv_and_due`. -/
theorem witness_step :
    ∃ s', step (machine topArmed 200000) = .next s' ∧ s'.now = 200000 := ⟨_, rfl, rfl⟩

theorem witness_counter_ffff :
    Addresses (machine { counting with tempHigh := 0xFF } 5) (unitOf { counting with tempHigh := 0xFF }) ∧
    (unitOf { counting with tempHigh := 0xFF }).regs.tempHigh = 0xFF ∧ 0 < counting.periodNs ∧
    modeClass params { counting with tempHigh := 0xFF } ≠ .pwm := ⟨⟨rfl, rfl⟩, rfl, by decide, by decide⟩

/-- Each clause of the decision point: a reset request; index 0, and the last index, least pending; disabled, and
nothing pending. -/
theorem witness_decision_point :
    (withCpu [0] true false 3 []).cpu.resetReq = true ∧
    ((withCpu [0, 31] false true 3 []).cpu.I = true ∧ isPending (withCpu [0, 31] false true 3 []).cpu.pending 0 = true) ∧
    (isPending (withCpu [31] false true 3 []).cpu.pending 31 = true ∧
      ∀ j, j < 31 → isPending (withCpu [31] false true 3 []).cpu.pending j = false) ∧
    (withCpu [31] false false 3 []).cpu.I = false ∧
    (∀ j, j < 32 → isPending (withCpu [] false true 3 []).cpu.pending j = false) ∧
    (∀ j, 32 ≤ j → isPending (withCpu [] false true 3 []).cpu.pending j = false) :=
  ⟨rfl, by decide, by decide, rfl, by decide, fun j hj => by
    simp [isPending, withCpu, List.getD_eq_getElem?_getD, hj]⟩

theorem witness_return :
    fitsPc .two 0xFFFF ∧ (withCpu [] false false 0 [0xFF, 0xFF, 9]).cpu.stack = pcBytes .two 0xFFFF ++ [9] ∧
    (withCpu [] false false 0 [0xFF]).cpu.stack.length < PcWidth.bytes .two := by
  refine ⟨?_, by decide, by decide⟩
  unfold fitsPc
  decide

theorem witness_dispatch_then_return :
    (withCpu [17] false true 0x0123 []).halted = false ∧ fitsPc .two (withCpu [17] false true 0x0123 []).cpu.pc ∧
    (withCpu [17] false true 0x0123 []).cpu.resetReq = false ∧ (withCpu [17] false true 0x0123 []).cpu.I = true ∧
    isPending (withCpu [17] false true 0x0123 []).cpu.pending 17 = true ∧
    ∀ j, j < 17 → isPending (withCpu [17] false true 0x0123 []).cpu.pending j = false := by
  refine ⟨rfl, ?_, rfl, rfl, by decide, by decide⟩
  unfold fitsPc
  decide

theorem witness_stack_push : (0x20 : Int) ≠ stackPointer 0x21 [] ∧ stackByte 0x21 [7] 0x21 = some 7 := by decide

theorem witness_reset : (machine topArmed 0).halted = false ∧ unitAt (machine topArmed 0) 0 = some (unitOf topArmed) :=
  ⟨rfl, rfl⟩

theorem witness_construct :
    unitOf (Timer.atReset 0) ∈ (State.construct MachineParams.vectors [params] 0).timers := by decide

/-- A flag and a line that are set, through an operation that is neither WR_IFR nor CPU_RESET. -/
theorem witness_flags_persist :
    ∃ s', exec .rdCra (machine { idle with ifr := 1, line := ⟨true, false, false, false, false⟩ } 0) = .next s' ∧
      (unitAt s' 0).map (fun u => (bitOf u.params u.regs.ifr .ovf, u.regs.line.ovf)) = some (true, true) := ⟨_, rfl, by decide⟩

/-- A pending bit that rises by an expiry, one cleared by a dispatch, and one cleared by reset. -/
theorem witness_pending_bits :
    (∃ s', exec .alarmFire (machine { topArmed with imsk := 2 } 200000) = .next s' ∧
      isPending s'.cpu.pending 17 = true) ∧
    (∃ s', exec .decisionPoint (withCpu [17] false true 0 []) = .next s' ∧ isPending s'.cpu.pending 17 = false) ∧
    (∃ s', exec .cpuReset (withCpu [17] false true 0 []) = .next s' ∧ isPending s'.cpu.pending 17 = false) :=
  ⟨⟨_, rfl, by decide⟩, ⟨_, rfl, by decide⟩, ⟨_, rfl, by decide⟩⟩

/-- An operation that is neither the decision point nor the return, on a machine of two units. -/
theorem witness_other_unit :
    ∃ s', exec (.wrCra 1) (State.construct MachineParams.vectors [params, params] 0) =
        .next s' ∧ (unitAt s' 0).isSome ∧ unitAt s' 1 = some (unitOf idle) ∧ s'.cpu.stack = [] :=
  ⟨_, rfl, by decide, by decide, rfl⟩

/-- Each writer of the latch changes it. -/
theorem witness_latch_writers :
    ((regs (exec .rdCntl (machine { counting with tempHigh := 9 } 0))).map Timer.tempHigh = some 0) ∧
    ((regs (exec .rdIcrl (machine { counting with tempHigh := 9 } 0))).map Timer.tempHigh = some 0) ∧
    ((regs (exec (.wrCnth 0) (machine { counting with tempHigh := 9 } 0))).map Timer.tempHigh = some 0) ∧
    ((regs (exec (.wrIcrh 0) (machine { counting with crb := 0x1B, tempHigh := 9 } 0))).map Timer.tempHigh = some 0) ∧
    ((regs (exec .cpuReset (machine { counting with tempHigh := 9 } 0))).map Timer.tempHigh = some 0) := by decide

/-- Each writer of the capture register, of the clock and of the epoch changes it. -/
theorem witness_other_writers :
    ((regs (exec (.wrIcrl 7) (machine { counting with crb := 0x1B } 0))).map Timer.icr = some 7) ∧
    ((regs (exec .cpuReset (machine { counting with icr := 9 } 5))).map (fun t => (t.icr, t.periodNs, t.epoch)) =
      some (0, 0, 5)) ∧
    ((regs (exec (.wrCrb 2) (machine counting 0))).map (fun t => (t.freqHz, t.periodNs)) = some (2000000, 500)) ∧
    ((regs (exec (.wrCrb 3) (machine idle 5))).map Timer.epoch = some 5) ∧
    ((regs (exec (.wrCntl 0) (machine counting 5))).map Timer.epoch = some 5) ∧
    ((regs (exec .alarmFire (machine topArmed 200000))).map Timer.epoch = some 200000) := by decide

/-- A diagnostic appended to an old one. -/
theorem witness_diagnostics :
    (regs (exec (.wrCrc 0x80) (machine { idle with diag := [⟨.pwmMode, 1⟩] } 9))).map Timer.diag =
      some [⟨.pwmMode, 1⟩, ⟨.forceCompare, 9⟩] := by decide

/-- A low-byte read and a machine at a later time that still holds its latch; the same for the capture register. -/
theorem witness_sixteen_bit_read :
    (∃ s1 u1, exec .rdCntl (machine counting 1200000) = .next s1 ∧ unitAt s1 s1.sel = some u1 ∧
      (unitOf { counting with tempHigh := 1 }).regs.tempHigh = u1.regs.tempHigh) ∧
    (∃ s1 u1, exec .rdIcrl (machine { counting with icr := 0x01C8 } 0) = .next s1 ∧ unitAt s1 s1.sel = some u1 ∧
      (unitOf { counting with tempHigh := 1 }).regs.tempHigh = u1.regs.tempHigh) ∧
    Addresses (machine { counting with tempHigh := 1 } 1300000000) (unitOf { counting with tempHigh := 1 }) :=
  ⟨⟨_, _, rfl, rfl, by decide⟩, ⟨_, _, rfl, rfl, by decide⟩, ⟨rfl, rfl⟩⟩

/-- A presented transaction with no alarm armed, and one a nanosecond before an alarm. -/
theorem witness_presented :
    (∀ k u a, unitAt (machine counting 0) k = some u → u.regs.alarm = some a → (5 : Int) < fireTime 0 a) ∧
    (∀ k u a, unitAt (machine topArmed 0) k = some u → u.regs.alarm = some a → (199999 : Int) < fireTime 0 a) ∧
    decode (present 5 [0x11, 3]).bytes = .ok (.wrCrb 3, []) ∧ (present 5 [0x11, 3]).width = 1 := by
  refine ⟨fun k u a hu ha => ?_, fun k u a hu ha => ?_, rfl, rfl⟩
  · obtain rfl : u = unitOf counting := List.mem_singleton.1 (List.mem_of_getElem? hu)
    cases ha
  · obtain rfl : u = unitOf topArmed := List.mem_singleton.1 (List.mem_of_getElem? hu)
    cases ha
    decide

/-- An alarm due at the very time of the next transaction, which is no ALARM_FIRE, earliest of all. -/
theorem witness_due_alarm :
    (∀ tail, decode (present 200000 [0x61]).bytes ≠ .ok (.alarmFire, tail)) ∧
    unitAt (machine topArmed 0) 0 = some (unitOf topArmed) ∧
    fireTime 0 ⟨.compareA, 50, 200000⟩ ≤ (present 200000 [0x61]).now ∧
    (∀ k' u' a', unitAt (machine topArmed 0) k' = some u' → u'.regs.alarm = some a' →
      (200000 : Int) < fireTime 0 a' ∨ ((200000 : Int) = fireTime 0 a' ∧ 0 ≤ k')) := by
  refine ⟨fun tail h => ?_, rfl, by decide, fun k' u' a' hu ha => ?_⟩
  · cases h
  · obtain rfl : u' = unitOf topArmed := List.mem_singleton.1 (List.mem_of_getElem? hu)
    cases ha
    exact .inr ⟨by decide, Nat.zero_le _⟩

/-- The last BUS word, with no width at all, and a unit that exists. -/
theorem witness_wrong_width :
    (0x5F : Byte).toNat < 0x60 ∧ ({ present 0 [0x5F] with width := 0 } : Transaction).width ≠ 1 ∧
    (present 0 [0x5F]).timer < (machine counting 0).timers.length := by decide

theorem witness_halted : ({ machine counting 0 with halted := true } : State).halted = true := rfl

/-- Two units of one machine, both due at one time. -/
theorem witness_simultaneous :
    let s : State := { machine topArmed 200000 with timers := [unitOf topArmed, unitOf topArmed] }
    s.halted = false ∧ (0 : Nat) ≠ 1 ∧ unitAt s 0 = some (unitOf topArmed) ∧ unitAt s 1 = some (unitOf topArmed) ∧
    (⟨.compareA, 50, 200000⟩ : Alarm).deadline ≤ s.now := ⟨rfl, by decide, rfl, rfl, by decide⟩

/-- The pseudo-operations of R105: the high byte is written first, the low byte read first, and `ADVANCE` only
moves the time of the next line. -/
theorem test_pseudo_operations :
    listing params 5 [.wr16 .cnt 0x1234, .ack .icf, .advance 9, .rd16 .cnt] =
      [(5, .wrCnth 0x12), (5, .wrCntl 0x34), (5, .wrIfr 0x20), (9, .rdCntl), (9, .rdCnth)] := by decide

end Sys2Proof.Tests
end

/-! PROOF. Time order and constancy of the parameters (`00_scope.md` R9, `10_state.md` R46,
`70_reset_and_hazards.md` R292). -/

namespace Sys2Proof.Machine

variable {i : Instr} {s s' : State} {u : TimerUnit}

/-- New registers in the addressed unit leave the parameters of every unit, and the number of units, as they
were. -/
theorem map_params_unitChanged (h : Addresses s u) (t : Timer) (r : Option Byte) :
    (unitChanged s u t r).timers.map TimerUnit.params = s.timers.map TimerUnit.params := by
  have hmap := congrArg (List.map TimerUnit.params) (set_same h)
  rw [List.map_set] at hmap
  rwa [unitChanged_timers, List.map_set]

/-- The frame of an operation: it is performed at the time of the state it starts in, and changes no parameter of
the machine or of a unit, nor the number of units (R46, R292). -/
theorem exec_keeps_now_and_params (h : exec i s = .next s') :
    s'.now = s.now ∧ s'.params = s.params ∧
    s'.timers.map TimerUnit.params = s.timers.map TimerUnit.params := by
  obtain ⟨-, ⟨u, t, r, hu, -, rfl⟩ | ⟨u, a, -, hu, -, -, rfl⟩ | ⟨-, rfl⟩ | ⟨b, -, rfl⟩ | ⟨c, -, -, rfl⟩ |
    ⟨-, rfl⟩ | ⟨-, rfl⟩⟩ := exec_next h
  case inl => exact ⟨rfl, rfl, map_params_unitChanged hu t r⟩
  case inr.inl => exact ⟨rfl, rfl, map_params_unitChanged hu _ none⟩
  case inr.inr.inr.inr.inr.inr => simp
  all_goals exact ⟨rfl, rfl, rfl⟩

/-- An alarm never expires before the latest operation (R76, R219). -/
theorem now_le_of_nextExpiry {k : Nat} {x : Int} (h : nextExpiry s = some (k, x)) : s.now ≤ x := by
  obtain ⟨⟨u, a, -, -, rfl⟩, -⟩ := nextExpiry_some h
  exact le_max_right _ _

/-- Settles O57: time moves only where the step takes up its operation, forward in either case, and the operation
itself changes neither the time nor a parameter. -/
theorem stepKeepsParametersAndTimeOrder : Obligations.StepKeepsParametersAndTimeOrder := by
  intro s s' h
  obtain ⟨-, ⟨k, x, hx, he⟩ | ⟨t, rest, -, hnow, ⟨i, tail, -, he⟩ | rfl⟩⟩ := step_next h
  · obtain ⟨htime, hframe⟩ := exec_keeps_now_and_params he
    exact ⟨(now_le_of_nextExpiry hx).trans_eq htime.symm, hframe⟩
  · obtain ⟨htime, hframe⟩ := exec_keeps_now_and_params he
    exact ⟨hnow.trans_eq htime.symm, hframe⟩
  · exact ⟨hnow, rfl, rfl⟩

end Sys2Proof.Machine

/-! PROOF. Which operation writes which part of a timer unit, of the CPU side and of the pending bitmap
(`10_state.md` R25, R29, R32, R33, R37, R39, R41 to R43, R48). -/

namespace Sys2Proof.Machine

variable {i : Instr} {s s' : State} {k : Nat} {u u' : TimerUnit} {p : TimerParams} {now : Int} {t t' : Timer}

/-! ### Diagnostics are appended -/

/-- The diagnostics `new` are `old` followed by records of time `now` (R37, R270). -/
def AppendsAt (now : Int) (old new : List Diag) : Prop :=
  ∃ added, new = old ++ added ∧ ∀ d ∈ added, d.time = now

theorem AppendsAt.refl (now : Int) (l : List Diag) : AppendsAt now l l :=
  ⟨[], by simp⟩

theorem AppendsAt.trans {l₁ l₂ l₃ : List Diag} (h₁ : AppendsAt now l₁ l₂) (h₂ : AppendsAt now l₂ l₃) :
    AppendsAt now l₁ l₃ := by
  obtain ⟨a, rfl, ha⟩ := h₁
  obtain ⟨b, rfl, hb⟩ := h₂
  refine ⟨a ++ b, List.append_assoc .., fun d hd => ?_⟩
  rcases List.mem_append.1 hd with hd | hd
  · exact ha d hd
  · exact hb d hd

theorem appendsAt_record (c : Bool) (kind : DiagKind) (now : Int) (l : List Diag) :
    AppendsAt now l (l ++ if c then [⟨kind, now⟩] else []) :=
  ⟨_, rfl, by cases c <;> simp⟩

theorem appendsAt_rearm (p : TimerParams) (now : Int) (t : Timer) : AppendsAt now t.diag (rearm p now t).diag := by
  rcases rearm_diag p now t with h | h <;> rw [h]
  · exact .refl ..
  · exact ⟨_, rfl, by simp⟩

/-! ### What a bus operation can do to its unit -/

/-- Everything a bus operation can do to the registers `t` of its unit, by the fields it writes. -/
inductive BusEffect (i : Instr) (p : TimerParams) (now : Int) (t : Timer) : Timer → Prop
  /-- a read without side effect, or a write that is ignored -/
  | unchanged : BusEffect i p now t t
  /-- a write of the latch alone (R29) -/
  | latch (b : Byte)
      (writer : i = .rdCntl ∨ i = .rdIcrl ∨ (∃ v, i = .wrCnth v) ∨
        ((∃ v, i = .wrIcrh v) ∧ modeClass p t = .ctcIcr)) :
      BusEffect i p now t { t with tempHigh := b }
  /-- WR_CRC (R146) -/
  | controlC (crc : Byte) (diag : List Diag) (appends : AppendsAt now t.diag diag) :
      BusEffect i p now t { t with crc := crc, diag := diag }
  /-- WR_IFR (R172) -/
  | acknowledge (v : Byte) : BusEffect i p now t (ackFlags p v t)
  /-- WR_CRA, WR_IMSK and the six writes of a compare half: Rearm follows (R142, R158 to R170) -/
  | schedule (cra imsk : Byte) (ocra ocrb ocrc : Word16) (diag : List Diag)
      (appends : AppendsAt now t.diag diag) :
      BusEffect i p now t (rearm p now
        { t with cra := cra, imsk := imsk, ocra := ocra, ocrb := ocrb, ocrc := ocrc, diag := diag })
  /-- WR_ICRL in capture-top mode (R154) -/
  | capture (icr : Word16) (writer : ∃ v, i = .wrIcrl v) (mode : modeClass p t = .ctcIcr) :
      BusEffect i p now t (rearm p now { t with icr := icr })
  /-- WR_CNTL (R150) -/
  | counter (value : Word16) (writer : ∃ v, i = .wrCntl v) :
      BusEffect i p now t (rearm p now (writeRaw now value t))
  /-- WR_CRB (R144): the clock stays with its selector, or is that of the new one -/
  | controlB (crb : Byte) (freq period : Nat) (epoch : Int) (diag : List Diag) (writer : ∃ v, i = .wrCrb v)
      (appends : AppendsAt now t.diag diag) (epoch_cases : epoch = t.epoch ∨ epoch = now)
      (clock : (csField crb = clockSel t ∧ freq = t.freqHz ∧ period = t.periodNs) ∨
        (freq = freqOf p.fBaseHz (csField crb) ∧ period = periodOf p.fBaseHz (csField crb))) :
      BusEffect i p now t (rearm p now
        { t with crb := crb, freqHz := freq, periodNs := period, epoch := epoch, diag := diag })

theorem busEffect_writeCra (i : Instr) (v : Byte) (p : TimerParams) (now : Int) (t : Timer) :
    BusEffect i p now t (writeCra v p now t) := by
  rw [writeCra, addDiagIf_eq]
  exact .schedule v t.imsk t.ocra t.ocrb t.ocrc _ (appendsAt_record ..)

theorem busEffect_writeCrc (i : Instr) (v : Byte) (p : TimerParams) (now : Int) (t : Timer) :
    BusEffect i p now t (writeCrc v p now t) := by
  rw [writeCrc, addDiagIf_eq]
  exact .controlC v _ (appendsAt_record ..)

theorem busEffect_writeCrb (v : Byte) (p : TimerParams) (now : Int) (t : Timer) :
    BusEffect (.wrCrb v) p now t (writeCrb v p now t) := by
  simp only [writeCrb, addDiagIf_eq]
  split
  case isTrue hcs =>
    exact .controlB v t.freqHz t.periodNs t.epoch _ ⟨v, rfl⟩ ((appendsAt_record ..).trans (appendsAt_record ..))
      (.inl rfl) (.inl ⟨hcs, rfl, rfl⟩)
  case isFalse =>
    exact .controlB v (freqOf p.fBaseHz (csField v)) (periodOf p.fBaseHz (csField v)) _ _ ⟨v, rfl⟩
      ((appendsAt_record ..).trans (appendsAt_record ..)) (ite_eq_or_eq ..).symm (.inr ⟨rfl, rfl⟩)

theorem busEffect_writeIcrl (v : Byte) (p : TimerParams) (now : Int) (t : Timer) :
    BusEffect (.wrIcrl v) p now t (writeIcrl v p now t) := by
  unfold writeIcrl
  split
  case isTrue hm => exact .capture _ ⟨v, rfl⟩ hm
  case isFalse => exact .unchanged

theorem busEffect_wrIcrh (v : Byte) (p : TimerParams) (now : Int) (t : Timer) :
    BusEffect (.wrIcrh v) p now t (if modeClass p t = .ctcIcr then { t with tempHigh := v } else t) := by
  split
  case isTrue hm => exact .latch v (.inr (.inr (.inr ⟨⟨v, rfl⟩, hm⟩)))
  case isFalse => exact .unchanged

/-- Rearm after writing scheduled registers other than Control A, without a diagnostic of the write's own. -/
theorem busEffect_rearm (i : Instr) (p : TimerParams) (now : Int) (t : Timer) (imsk : Byte)
    (ocra ocrb ocrc : Word16) :
    BusEffect i p now t (rearm p now { t with imsk := imsk, ocra := ocra, ocrb := ocrb, ocrc := ocrc }) :=
  .schedule t.cra imsk ocra ocrb ocrc t.diag (.refl ..)

/-- Every bus operation has one of the effects. -/
theorem afterBus_busEffect {r : Option Byte} (h : afterBus i p now t = some (t', r)) : BusEffect i p now t t' := by
  cases i <;> cases h
  case wrCra v => exact busEffect_writeCra ..
  case wrCrb v => exact busEffect_writeCrb ..
  case wrCrc v => exact busEffect_writeCrc ..
  case rdCntl => exact .latch _ (.inl rfl)
  case wrCntl v => exact .counter _ ⟨v, rfl⟩
  case wrCnth v => exact .latch v (.inr (.inr (.inl ⟨v, rfl⟩)))
  case rdIcrl => exact .latch _ (.inr (.inl rfl))
  case wrIcrl v => exact busEffect_writeIcrl ..
  case wrIcrh v => exact busEffect_wrIcrh ..
  case wrOcral v => exact busEffect_rearm _ p now t t.imsk (withLow t.ocra v) t.ocrb t.ocrc
  case wrOcrah v => exact busEffect_rearm _ p now t t.imsk (withHigh t.ocra v) t.ocrb t.ocrc
  case wrOcrbl v => exact busEffect_rearm _ p now t t.imsk t.ocra (withLow t.ocrb v) t.ocrc
  case wrOcrbh v => exact busEffect_rearm _ p now t t.imsk t.ocra (withHigh t.ocrb v) t.ocrc
  case wrOcrcl v => exact busEffect_rearm _ p now t t.imsk t.ocra t.ocrb (withLow t.ocrc v)
  case wrOcrch v => exact busEffect_rearm _ p now t t.imsk t.ocra t.ocrb (withHigh t.ocrc v)
  case wrImsk v => exact busEffect_rearm _ p now t v t.ocra t.ocrb t.ocrc
  case wrIfr v => exact .acknowledge v
  all_goals exact .unchanged

/-! ### What the handler and the write-1-to-clear loop leave unchanged -/

@[simp] theorem raiseFlags_tempHigh (p now kind t pending) :
    (raiseFlags p now kind t pending).1.tempHigh = t.tempHigh := by rw [raiseFlags_timer]
@[simp] theorem raiseFlags_icr (p now kind t pending) :
    (raiseFlags p now kind t pending).1.icr = t.icr := by rw [raiseFlags_timer]
@[simp] theorem raiseFlags_freqHz (p now kind t pending) :
    (raiseFlags p now kind t pending).1.freqHz = t.freqHz := by rw [raiseFlags_timer]
@[simp] theorem raiseFlags_periodNs (p now kind t pending) :
    (raiseFlags p now kind t pending).1.periodNs = t.periodNs := by rw [raiseFlags_timer]
@[simp] theorem raiseFlags_diag (p now kind t pending) :
    (raiseFlags p now kind t pending).1.diag = t.diag := by rw [raiseFlags_timer]

@[simp] theorem ackFlags_tempHigh (p v t) : (ackFlags p v t).tempHigh = t.tempHigh := by rw [ackFlags_timer]
@[simp] theorem ackFlags_icr (p v t) : (ackFlags p v t).icr = t.icr := by rw [ackFlags_timer]
@[simp] theorem ackFlags_freqHz (p v t) : (ackFlags p v t).freqHz = t.freqHz := by rw [ackFlags_timer]
@[simp] theorem ackFlags_periodNs (p v t) : (ackFlags p v t).periodNs = t.periodNs := by rw [ackFlags_timer]
@[simp] theorem ackFlags_epoch (p v t) : (ackFlags p v t).epoch = t.epoch := by rw [ackFlags_timer]
@[simp] theorem ackFlags_diag (p v t) : (ackFlags p v t).diag = t.diag := by rw [ackFlags_timer]

/-! ### What any operation can do to a unit -/

/-- The registers and the pending bitmap after the expiry of alarm `a` of a unit, in the state `s`. -/
def afterExpiry (s : State) (u : TimerUnit) (a : Alarm) : Timer × List Bool :=
  let raised := raiseFlags u.params s.now a.kind u.regs s.cpu.pending
  (rearm u.params s.now raised.1, raised.2)

/-- A unit after an operation that changes one unit: the same, or the changed one. -/
theorem unitAt_unitChanged_cases {v : TimerUnit} (hv : Addresses s v) {r : Option Byte}
    (hu : unitAt s k = some u) (hu' : unitAt (unitChanged s v t r) k = some u') :
    u' = u ∨ (k = s.sel ∧ v = u ∧ u' = { u with regs := t }) := by
  rw [unitAt_unitChanged hv] at hu'
  split at hu'
  case isTrue hk =>
    subst hk
    obtain rfl : v = u := Option.some.inj (hv.2.symm.trans hu)
    exact .inr ⟨rfl, rfl, (Option.some.inj hu').symm⟩
  case isFalse => exact .inl (Option.some.inj (hu'.symm.trans hu))

/-- Everything an operation can do to a unit: nothing; the effect of a bus operation or of an expiry, on the addressed
unit only; a reset. -/
theorem exec_unit_cases (h : exec i s = .next s') (hu : unitAt s k = some u) (hu' : unitAt s' k = some u') :
    u' = u ∨
    (k = s.sel ∧ BusEffect i u.params s.now u.regs u'.regs) ∨
    (k = s.sel ∧ i = .alarmFire ∧ ∃ a, u'.regs = (afterExpiry s u a).1 ∧
      s'.cpu.pending = (afterExpiry s u a).2) ∨
    (i = .cpuReset ∧ u'.regs = resetTimer s.now u.regs) := by
  have same {x : State} (hx : x.timers = s.timers) (hx' : unitAt x k = some u') : u' = u := by
    rw [unitAt, hx] at hx'
    exact Option.some.inj (hx'.symm.trans hu)
  obtain ⟨-, ⟨v, t, r, hv, hb, rfl⟩ | ⟨v, a, rfl, hv, -, -, rfl⟩ | ⟨-, rfl⟩ | ⟨b, -, rfl⟩ | ⟨c, -, -, rfl⟩ |
    ⟨-, rfl⟩ | ⟨rfl, rfl⟩⟩ := exec_next h
  case inl =>
    rcases unitAt_unitChanged_cases hv hu hu' with rfl | ⟨rfl, rfl, rfl⟩
    · exact .inl rfl
    · exact .inr (.inl ⟨rfl, afterBus_busEffect hb⟩)
  case inr.inl =>
    rcases unitAt_unitChanged_cases (r := none) hv hu hu' with rfl | ⟨rfl, rfl, rfl⟩
    · exact .inl rfl
    · exact .inr (.inr (.inl ⟨rfl, rfl, a, rfl, rfl⟩))
  case inr.inr.inr.inr.inr.inr =>
    rw [unitAt, List.getElem?_map, show s.timers[k]? = some u from hu] at hu'
    cases hu'
    exact .inr (.inr (.inr ⟨rfl, rfl⟩))
  all_goals exact .inl (same rfl hu')

/-! ### The writers of each part of a unit -/

/-- Settles O47: of the effects of a bus operation only those on the latch write it, and an expiry does not. -/
theorem latchWriters : Obligations.LatchWriters := by
  intro i s s' k u u' h hu hu' hne
  rcases exec_unit_cases h hu hu' with rfl | ⟨hk, hb⟩ | ⟨-, -, a, hr, -⟩ | ⟨hi, -⟩
  · exact absurd rfl hne
  · generalize u'.regs = t' at hb hne
    cases hb with
    | latch b writer => exact .inr ⟨hk, writer⟩
    | _ => simp [writeRaw] at hne
  · simp [hr, afterExpiry] at hne
  · exact .inl hi

/-- Settles O48: the one effect of a bus operation that writes the capture register is that of WR_ICRL in capture-top
mode. -/
theorem captureRegisterWriters : Obligations.CaptureRegisterWriters := by
  intro i s s' k u u' h hu hu' hne
  rcases exec_unit_cases h hu hu' with rfl | ⟨hk, hb⟩ | ⟨-, -, a, hr, -⟩ | ⟨hi, -⟩
  · exact absurd rfl hne
  · generalize u'.regs = t' at hb hne
    cases hb with
    | capture icr writer mode => exact .inr ⟨hk, writer, mode⟩
    | _ => simp [writeRaw] at hne
  · simp [hr, afterExpiry] at hne
  · exact .inl hi

/-- Only WR_CRB, of the bus operations, writes the clock. -/
theorem BusEffect.clock_writer (h : BusEffect i p now t t')
    (hne : t'.freqHz ≠ t.freqHz ∨ t'.periodNs ≠ t.periodNs) : ∃ v, i = .wrCrb v := by
  cases h with
  | controlB _ _ _ _ _ writer => exact writer
  | _ => simp [writeRaw] at hne

/-- Only WR_CRB and WR_CNTL, of the bus operations, write the epoch. -/
theorem BusEffect.epoch_writer (h : BusEffect i p now t t') (hne : t'.epoch ≠ t.epoch) :
    (∃ v, i = .wrCrb v) ∨ ∃ v, i = .wrCntl v := by
  cases h with
  | controlB _ _ _ _ _ writer => exact .inl writer
  | counter _ writer => exact .inr writer
  | _ => simp at hne

/-- Settles O49: the clock is written by WR_CRB alone and the epoch by it and WR_CNTL, but for an expiry, which keeps
the clock, and a reset. -/
theorem clockAndEpochWriters : Obligations.ClockAndEpochWriters := by
  intro i s s' k u u' h hu hu'
  rcases exec_unit_cases h hu hu' with rfl | ⟨hk, hb⟩ | ⟨hk, hi, a, hr, -⟩ | ⟨hi, -⟩
  · simp
  · refine ⟨fun hne => .inr ⟨hk, hb.clock_writer hne⟩, fun hne => .inr ⟨hk, ?_⟩⟩
    rw [← or_assoc]
    exact .inl (hb.epoch_writer hne)
  · refine ⟨fun hne => ?_, fun _ => .inr ⟨hk, .inr (.inr hi)⟩⟩
    simp [hr, afterExpiry] at hne
  · exact ⟨fun _ => .inl hi, fun _ => .inl hi⟩

/-- A bus operation only appends diagnostics. -/
theorem BusEffect.appendsAt (h : BusEffect i p now t t') : AppendsAt now t.diag t'.diag := by
  cases h with
  | controlC _ _ appends => exact appends
  | schedule _ _ _ _ _ _ appends => exact appends.trans (appendsAt_rearm ..)
  | capture => exact appendsAt_rearm p now { t with icr := _ }
  | counter => exact appendsAt_rearm p now (writeRaw now _ t)
  | controlB _ _ _ _ _ _ appends => exact appends.trans (appendsAt_rearm ..)
  | acknowledge v => simpa using AppendsAt.refl ..
  | unchanged | latch => exact .refl ..

/-- An expiry only appends diagnostics. -/
theorem appendsAt_afterExpiry (s : State) (u : TimerUnit) (a : Alarm) :
    AppendsAt s.now u.regs.diag (afterExpiry s u a).1.diag := by
  have h := appendsAt_rearm u.params s.now (raiseFlags u.params s.now a.kind u.regs s.cpu.pending).1
  rwa [raiseFlags_diag] at h

/-- Settles O50: the writes and Rearm append records of the present time, and nothing removes one. -/
theorem diagnosticsOnlyAppended : Obligations.DiagnosticsOnlyAppended := by
  intro i s s' k u u' h hu hu'
  show AppendsAt s.now u.regs.diag u'.regs.diag
  rcases exec_unit_cases h hu hu' with rfl | ⟨-, hb⟩ | ⟨-, -, a, hr, -⟩ | ⟨-, hr⟩
  · exact .refl ..
  · exact hb.appendsAt
  · rw [hr]
    exact appendsAt_afterExpiry s u a
  · rw [hr]
    exact .refl ..

/-! ### The units and the CPU side -/

/-- Settles O46: a bus operation and an expiry write the unit they are for, and an event of the CPU side none. -/
theorem unitsShareNothing : Obligations.UnitsShareNothing := by
  intro i s s' h hreset
  obtain ⟨-, ⟨u, t, r, hu, hb, rfl⟩ | ⟨u, a, rfl, hu, -, -, rfl⟩ | ⟨-, rfl⟩ | ⟨b, -, rfl⟩ | ⟨c, -, -, rfl⟩ |
    ⟨-, rfl⟩ | ⟨hi, -⟩⟩ := exec_next h
  case inl =>
    refine ⟨by simp, fun k hk => by rw [unitAt_unitChanged hu, if_neg hk], ?_⟩
    rintro (rfl | rfl | rfl | ⟨b, rfl⟩) <;> cases hb
  case inr.inl =>
    exact ⟨by simp, fun k hk => (unitAt_unitChanged hu _ none k).trans (if_neg hk), by simp⟩
  case inr.inr.inr.inr.inr.inr => exact absurd hi hreset
  all_goals exact ⟨rfl, fun _ _ => rfl, fun _ => rfl⟩

/-- Settles O45: the operations on a unit and the reset leave the program counter and the stack, and of the other
events of the CPU side ENV_SET_I and ENV_RESET_REQ write one bit each. -/
theorem onlyDispatchAndReturnMoveThePc : Obligations.OnlyDispatchAndReturnMoveThePc := by
  intro i s s' h hdecision hreturn
  obtain ⟨-, ⟨u, t, r, -, -, rfl⟩ | ⟨u, a, -, -, -, -, rfl⟩ | ⟨hi, -⟩ | ⟨b, hi, rfl⟩ | ⟨c, hi, -, -⟩ | ⟨-, rfl⟩ |
    ⟨hi, rfl⟩⟩ := exec_next h
  case inr.inr.inl => exact absurd hi hdecision
  case inr.inr.inr.inl => exact ⟨rfl, rfl, fun hset _ => absurd hi (hset b)⟩
  case inr.inr.inr.inr.inl => exact absurd hi hreturn
  case inr.inr.inr.inr.inr.inr => exact ⟨rfl, rfl, fun _ hreset => absurd hi hreset⟩
  all_goals exact ⟨rfl, rfl, fun _ _ => rfl⟩

/-- No operation of a halted machine is enabled (R43). -/
theorem exec_of_halted (h : s.halted = true) (i : Instr) : exec i s = .fault .hostAssert := by
  cases i <;> exact ifRunning_of_halted h _

/-- No operation writes the fault mark. -/
theorem exec_keeps_halted (h : exec i s = .next s') : s'.halted = s.halted := by
  obtain ⟨-, ⟨u, t, r, -, -, rfl⟩ | ⟨u, a, -, -, -, -, rfl⟩ | ⟨-, rfl⟩ | ⟨b, -, rfl⟩ | ⟨c, -, -, rfl⟩ | ⟨-, rfl⟩ |
    ⟨-, rfl⟩⟩ := exec_next h <;> rfl

/-- Settles O56: every operation and every step asks for the fault mark first, and no operation writes it. -/
theorem haltedMachineDoesNothing : Obligations.HaltedMachineDoesNothing :=
  ⟨fun _ _ _ => rfl, fun _ h => ⟨ifRunning_of_halted h _, exec_of_halted h⟩, fun _ _ _ => exec_keeps_halted⟩

/-! ### The pending bitmap -/

/-- A bus operation raises no line. -/
theorem BusEffect.line_low (h : BusEffect i p now t t') {x : Source} (hx : t.line.get x = false) :
    t'.line.get x = false := by
  cases h with
  | acknowledge v => exact ackFlags_line_low p v t hx
  | _ => simpa [writeRaw] using hx

@[simp] theorem isPending_replicate_false (n j : Nat) : isPending (List.replicate n false) j = false := by
  simp only [isPending, List.getD_eq_getElem?_getD, List.getElem?_replicate]
  split <;> rfl

theorem returnFromInterrupt_pending {m : MachineParams} {c c' : Cpu} (h : returnFromInterrupt m c = some c') :
    c'.pending = c.pending := by
  obtain ⟨r, -, rfl⟩ := Option.map_eq_some_iff.1 h
  rfl

/-- Everything an operation can do to the pending bitmap: nothing; what an expiry raises; the dispatch of the least
index; a reset. -/
theorem exec_pending_cases (h : exec i s = .next s') :
    s'.cpu.pending = s.cpu.pending ∨
    (i = .alarmFire ∧ ∃ u a, unitAt s s.sel = some u ∧
      unitAt s' s.sel = some { u with regs := (afterExpiry s u a).1 } ∧
      s'.cpu.pending = (afterExpiry s u a).2) ∨
    (i = .decisionPoint ∧ s.cpu.resetReq = false ∧ s.cpu.I = true ∧ ∃ j, leastPending s.cpu.pending = some j ∧
      s'.cpu.pending = setPending s.cpu.pending j false) ∨
    (i = .cpuReset ∧ s'.cpu.pending = s.cpu.pending.map fun _ => false) := by
  obtain ⟨-, ⟨u, t, r, -, -, rfl⟩ | ⟨u, a, rfl, hu, -, -, rfl⟩ | ⟨rfl, rfl⟩ | ⟨b, -, rfl⟩ | ⟨c, -, hc, rfl⟩ | ⟨-, rfl⟩ |
    ⟨rfl, rfl⟩⟩ := exec_next h
  case inr.inl => exact .inr (.inl ⟨rfl, u, a, hu.2, (addresses_unitChanged hu _ none).2, rfl⟩)
  case inr.inr.inl =>
    rcases decisionPoint_cases s.params s.cpu with ⟨-, hd⟩ | ⟨j, hr, hI, hj, hd⟩ | ⟨-, -, hd⟩
    · exact .inl (by rw [cpuChanged_cpu, hd]; rfl)
    · exact .inr (.inr (.inl ⟨rfl, hr, hI, j, hj, by rw [cpuChanged_cpu, hd]⟩))
    · exact .inl (by rw [cpuChanged_cpu, hd])
  case inr.inr.inr.inr.inl => exact .inl (returnFromInterrupt_pending hc)
  case inr.inr.inr.inr.inr.inr => exact .inr (.inr (.inr ⟨rfl, rfl⟩))
  all_goals exact .inl rfl

theorem exec_pending_length (h : exec i s = .next s') : s'.cpu.pending.length = s.cpu.pending.length := by
  rcases exec_pending_cases h with hp | ⟨-, u, a, -, -, hp⟩ | ⟨-, -, -, j, -, hp⟩ | ⟨-, hp⟩ <;>
    simp [hp, afterExpiry]

/-- The line of a source after an expiry (R231). -/
theorem afterExpiry_line (s : State) (u : TimerUnit) (a : Alarm) (x : Source) :
    (afterExpiry s u a).1.line.get x =
      (u.regs.line.get x || hits u.params u.regs a.kind (currentCount u.regs s.now) x) := by
  simp [afterExpiry, raiseFlags_line]

/-- A pending bit after an expiry: set before, or that of a line that rises (R251). -/
theorem afterExpiry_pending (s : State) (u : TimerUnit) (a : Alarm) {j : Nat} (hj : j < s.cpu.pending.length) :
    isPending (afterExpiry s u a).2 j = true ↔ isPending s.cpu.pending j = true ∨
      ∃ x, u.regs.line.get x = false ∧ (afterExpiry s u a).1.line.get x = true ∧ irqIndex u.params x = j := by
  refine (raiseFlags_pending _ _ _ _ _ hj).trans (or_congr_right (exists_congr fun x => ?_))
  rw [afterExpiry_line]
  cases u.regs.line.get x <;> simp

/-- A line that rises sets the bit it is wired to (R251). -/
theorem exec_rising_line_pending (h : exec i s = .next s') (hu : unitAt s k = some u) (hu' : unitAt s' k = some u')
    {x : Source} (hlow : u.regs.line.get x = false) (hhigh : u'.regs.line.get x = true)
    (hj : irqIndex u.params x < s.cpu.pending.length) : isPending s'.cpu.pending (irqIndex u.params x) = true := by
  rcases exec_unit_cases h hu hu' with rfl | ⟨-, hb⟩ | ⟨-, -, a, hr, hp⟩ | ⟨-, hr⟩
  · simp [hlow] at hhigh
  · simp [hb.line_low hlow] at hhigh
  · rw [hp, afterExpiry_pending s u a hj]
    exact .inr ⟨x, hlow, hr ▸ hhigh, rfl⟩
  · rw [hr] at hhigh
    cases x <;> cases hhigh

/-- A bit is set by the expiry whose line rises, and by nothing else (R39). -/
theorem exec_pending_set (h : exec i s = .next s') {j : Nat} (hclear : isPending s.cpu.pending j = false)
    (hset : isPending s'.cpu.pending j = true) :
    i = .alarmFire ∧ ∃ u u' x, unitAt s s.sel = some u ∧ unitAt s' s.sel = some u' ∧
      u.regs.line.get x = false ∧ u'.regs.line.get x = true ∧ irqIndex u.params x = j := by
  have hj : j < s.cpu.pending.length := exec_pending_length h ▸ lt_length_of_isPending hset
  rcases exec_pending_cases h with hp | ⟨hi, u, a, hu, hu', hp⟩ | ⟨-, -, -, j', -, hp⟩ | ⟨-, hp⟩ <;> rw [hp] at hset
  · simp [hclear] at hset
  · rcases (afterExpiry_pending s u a hj).1 hset with hset | ⟨x, hlow, hhigh, hx⟩
    · simp [hclear] at hset
    · exact ⟨hi, u, _, x, hu, hu', hlow, hhigh, hx⟩
  · simp [isPending_clear, hclear] at hset
  · simp at hset

/-- A bit is cleared by the dispatch that takes it or by reset, and by nothing else (R39). -/
theorem exec_pending_cleared (h : exec i s = .next s') {j : Nat} (hset : isPending s.cpu.pending j = true)
    (hclear : isPending s'.cpu.pending j = false) :
    i = .cpuReset ∨ (i = .decisionPoint ∧ s.cpu.resetReq = false ∧ s.cpu.I = true ∧
      ∀ j', j' < j → isPending s.cpu.pending j' = false) := by
  rcases exec_pending_cases h with hp | ⟨-, u, a, -, -, hp⟩ | ⟨hi, hr, hI, j', hj', hp⟩ | ⟨hi, -⟩
  · simp [hp, hset] at hclear
  · have := (afterExpiry_pending s u a (lt_length_of_isPending hset)).2 (.inl hset)
    simp [hp, this] at hclear
  · obtain rfl : j' = j := by simpa [hp, isPending_clear, hset] using hclear
    exact .inr ⟨hi, hr, hI, (leastPending_eq_some.1 hj').2⟩
  · exact .inl hi

theorem exec_cpuReset_pending (h : exec .cpuReset s = .next s') (j : Nat) : isPending s'.cpu.pending j = false := by
  rw [exec_cpuReset (exec_next h).1] at h
  cases h
  simp

/-- Settles O44: the rising edge, the setting and the clearing of a bit, each from what an operation can do to the
bitmap. -/
theorem pendingBitsFollowEdgesAndDispatches : Obligations.PendingBitsFollowEdgesAndDispatches := by
  refine ⟨fun _ _ _ => rfl, fun i s s' h => ⟨exec_pending_length h, ?_, ?_, fun j => ⟨?_, ?_⟩⟩⟩
  · exact fun k u u' x hu hu' => exec_rising_line_pending h hu hu'
  · rintro rfl j
    exact exec_cpuReset_pending h j
  · exact exec_pending_set h
  · exact exec_pending_cleared h

end Sys2Proof.Machine

/-! PROOF. What construction leaves, and the invariant of the machine: it holds at construction and every step keeps it
(`10_state.md` R38, R39, R42, R45, `40_counter_model.md` R129, `43_alarm_scheduler.md` R220, `44_interrupt_latch.md`
R242, R243). -/

namespace Sys2Proof.Machine

variable {i : Instr} {s s' : State} {k : Nat} {u u' : TimerUnit} {p : TimerParams} {now later : Int} {t t' : Timer}

/-! ### Construction -/

/-- A unit of a constructed machine is a unit at reset with one of the given parameters. -/
theorem mem_construct_timers {m : MachineParams} {ps : List TimerParams} {τ : Int}
    (hu : u ∈ (State.construct m ps τ).timers) : u.params ∈ ps ∧ u.regs = Timer.atReset τ := by
  obtain ⟨p, hp, rfl⟩ := List.mem_map.1 hu
  exact ⟨hp, rfl⟩

theorem construct_params (m : MachineParams) (ps : List TimerParams) (τ : Int) :
    (State.construct m ps τ).timers.map TimerUnit.params = ps := by
  simp [State.construct, Function.comp_def]

/-- Settles O42: every unit of a constructed machine is at reset, where no time passes for the stopped counter. -/
theorem constructionState : Obligations.ConstructionState := by
  intro m ps τ
  refine ⟨rfl, rfl, rfl, rfl, rfl, construct_params m ps τ, fun u hu => ?_⟩
  rw [(mem_construct_timers hu).2]
  have hlines : ∀ x, (Timer.atReset τ).line.get x = false := by
    intro x
    cases x <;> rfl
  exact ⟨rfl, rfl, rfl, rfl, rfl, rfl, rfl, rfl, rfl, rfl, rfl, rfl, rfl, rfl, hlines, rfl,
    currentCount_stopped rfl⟩

/-! ### The alarm Rearm arms arrives at its target -/

/-- A candidate that takes over lies above the counter, so that the best so far never lies below it. -/
theorem le_consider {q : Bool} {kind : EventKind} {v c : Word16} {best : EventKind × Word16}
    (h : c.toNat ≤ best.2.toNat) : c.toNat ≤ (consider q kind v c best).2.toNat := by
  rcases consider_cases q kind v c best with ⟨he, -, hlt, -⟩ | ⟨he, -⟩ <;> rw [he]
  · exact hlt.le
  · exact h

/-- The chosen event does not lie below the counter (R212). -/
theorem le_nextEvent (p : TimerParams) (t : Timer) (c : Word16) : c.toNat ≤ (nextEvent p t c).2.toNat :=
  le_consider <| le_consider <| le_consider <| le_consider <| Nat.le_of_lt_succ c.isLt

/-- At the later of `now` and the tick that lies `d` ticks ahead, `d` more ticks have elapsed. -/
theorem elapsedTicks_max_deadline (h : 0 < t.periodNs) (now : Int) {d : Int} (hd : 0 ≤ d) :
    elapsedTicks t (max (t.epoch + (elapsedTicks t now + d) * t.periodNs) now) = elapsedTicks t now + d := by
  obtain ⟨hle, hlt⟩ := (elapsedTicks_eq_iff h now _).1 rfl
  rcases hd.eq_or_lt with rfl | hpos
  · rw [Int.add_zero, max_eq_right hle]
  · have hp : (0 : Int) < t.periodNs := by exact_mod_cast h
    have hnext : now ≤ t.epoch + (elapsedTicks t now + d) * t.periodNs := by nlinarith
    rw [max_eq_left hnext, elapsedTicks_at h]

/-- The alarm Rearm computes expires when the counter stands at its target (R243). -/
theorem currentCount_fireTime_nextAlarm (h : 0 < t.periodNs) (p : TimerParams) (now : Int) :
    currentCount t (fireTime now (nextAlarm p now t)) = (nextAlarm p now t).target := by
  have hle := le_nextEvent p t (currentCount t now)
  have hcount := currentCount_toInt t now
  have harrive := currentCount_toInt t (fireTime now (nextAlarm p now t))
  simp only [fireTime, nextAlarm] at harrive ⊢
  generalize (nextEvent p t (currentCount t now)).2 = target at *
  rw [elapsedTicks_max_deadline h now (by omega)] at harrive
  have := target.isLt
  apply BitVec.eq_of_toNat_eq
  omega

/-! ### The invariant of a unit -/

/-- The part of the invariant of a unit that does not speak of the alarm. -/
structure RegsInv (p : TimerParams) (now : Int) (t : Timer) : Prop where
  bits_distinct : p.bitPositions.Nodup
  epoch_le : t.epoch ≤ now
  freq_eq : t.freqHz = freqOf p.fBaseHz (clockSel t)
  period_eq : t.periodNs = periodOf p.fBaseHz (clockSel t)
  line_eq_flag : ∀ x, t.line.get x = t.ifr.getLsbD (bitIndex p x)
  ifr_sources_only : ∀ j, (∀ x, bitIndex p x ≠ j) → t.ifr.getLsbD j = false

theorem TimerInv.regsInv (h : TimerInv p now t) : RegsInv p now t := { h with }

/-- Something is armed after Rearm exactly in a running supported mode (R213, R214, R220). -/
theorem rearm_armed_iff (p : TimerParams) (now : Int) (t : Timer) :
    (rearm p now t).armed = true ↔ 0 < t.periodNs ∧ modeClass p t ≠ .pwm := by
  rcases Nat.eq_zero_or_pos t.periodNs with hstop | hrun
  · simp [Timer.armed, rearm_stopped hstop, hstop]
  · by_cases hm : modeClass p t = .pwm
    · simp [Timer.armed, rearm_pwm hrun hm, hm]
    · simp [Timer.armed, rearm_running hrun hm, hm, hrun]

/-- Rearm establishes the invariant, whatever alarm stood before. -/
theorem RegsInv.timerInv_rearm (h : RegsInv p now t) : TimerInv p now (rearm p now t) where
  bits_distinct := h.bits_distinct
  epoch_le := by simpa using h.epoch_le
  freq_eq := by simpa [clockSel] using h.freq_eq
  period_eq := by simpa [clockSel] using h.period_eq
  armed_iff := by simpa using rearm_armed_iff p now t
  alarm_current := by
    intro a ha
    obtain ⟨-, -, rfl⟩ := rearm_alarm_some ha
    exact ⟨now, by simpa using h.epoch_le, le_rfl, (rearm_nextAlarm ..).symm⟩
  alarm_arrives := by
    intro a ha
    obtain ⟨hrun, -, rfl⟩ := rearm_alarm_some ha
    rw [rearm_currentCount, currentCount_fireTime_nextAlarm hrun]
  line_eq_flag := by simpa using h.line_eq_flag
  ifr_sources_only := by simpa using h.ifr_sources_only

/-- The invariant does not speak of Control C, the latch and the diagnostics. -/
theorem TimerInv.with_inert (h : TimerInv p now t) (crc tempHigh : Byte) (diag : List Diag) :
    TimerInv p now { t with crc := crc, tempHigh := tempHigh, diag := diag } :=
  { h with }

/-- The invariant with other flags and lines that agree. -/
theorem TimerInv.with_flags (h : TimerInv p now t) {ifr : Byte} {line : Lines}
    (hline : ∀ x, line.get x = ifr.getLsbD (bitIndex p x))
    (hother : ∀ j, (∀ x, bitIndex p x ≠ j) → ifr.getLsbD j = false) :
    TimerInv p now { t with ifr := ifr, line := line } :=
  { h with line_eq_flag := hline, ifr_sources_only := hother }

/-- An acknowledged flag takes its line with it (R242). -/
theorem TimerInv.ackFlags (h : TimerInv p now t) (v : Byte) : TimerInv p now (ackFlags p v t) := by
  rw [ackFlags_timer]
  refine h.with_flags (fun x => ?_) (fun j hj => ?_)
  · rw [ackFlags_line h.bits_distinct, ackFlags_flag h.bits_distinct, h.line_eq_flag]
    cases t.ifr.getLsbD (bitIndex p x) <;> simp
  · rw [ackFlags_other p v t hj, h.ifr_sources_only j hj]

/-- A written counter started counting no later than now (R126, R129). -/
theorem writeRaw_epoch_le (now : Int) (value : Word16) (t : Timer) : (writeRaw now value t).epoch ≤ now := by
  have : (0 : Int) ≤ value.toNat * t.periodNs := by positivity
  rw [writeRaw_epoch]
  omega

/-- Every bus operation keeps the invariant of its unit. -/
theorem BusEffect.timerInv (hb : BusEffect i p now t t') (h : TimerInv p now t) : TimerInv p now t' := by
  cases hb with
  | unchanged => exact h
  | latch b => exact h.with_inert t.crc b t.diag
  | controlC crc diag => exact h.with_inert crc t.tempHigh diag
  | acknowledge v => exact h.ackFlags v
  | schedule => exact RegsInv.timerInv_rearm { h.regsInv with }
  | capture => exact RegsInv.timerInv_rearm { h.regsInv with }
  | counter value =>
    exact RegsInv.timerInv_rearm { h.regsInv with epoch_le := writeRaw_epoch_le now value t }
  | controlB crb freq period epoch diag writer appends hepoch hclock =>
    refine RegsInv.timerInv_rearm { h.regsInv with epoch_le := ?_, freq_eq := ?_, period_eq := ?_ }
    · rcases hepoch with rfl | rfl
      · exact h.epoch_le
      · exact le_rfl
    all_goals
      rcases hclock with ⟨hsel, rfl, rfl⟩ | ⟨rfl, rfl⟩
      · simp only [clockSel, hsel, h.freq_eq, h.period_eq]
      · rfl

/-- The handler keeps what Rearm needs: each flag it sets comes with its line (R231, R242). -/
theorem RegsInv.raiseFlags (h : RegsInv p now t) (kind : EventKind) (pending : List Bool) :
    RegsInv p now (raiseFlags p now kind t pending).1 := by
  rw [raiseFlags_timer]
  refine { h with epoch_le := ?_, line_eq_flag := fun x => ?_, ifr_sources_only := fun j hj => ?_ }
  · show (if _ then _ else _) ≤ now
    split
    · exact le_rfl
    · exact h.epoch_le
  · rw [raiseFlags_line, raiseFlags_flag h.bits_distinct, h.line_eq_flag]
  · rw [raiseFlags_other p now kind t pending hj, h.ifr_sources_only j hj]

/-- An expiry keeps the invariant of its unit. -/
theorem TimerInv.afterExpiry (h : TimerInv u.params s.now u.regs) (a : Alarm) :
    TimerInv u.params s.now (afterExpiry s u a).1 :=
  (h.regsInv.raiseFlags a.kind s.cpu.pending).timerInv_rearm

/-- A unit at reset meets the invariant: the selector is 0, which is the stopped clock. -/
theorem timerInv_atReset (h : p.bitPositions.Nodup) (now : Int) : TimerInv p now (Timer.atReset now) where
  bits_distinct := h
  epoch_le := le_rfl
  freq_eq := rfl
  period_eq := rfl
  armed_iff := by simp [Timer.armed, Timer.atReset]
  alarm_current := fun _ ha => nomatch ha
  alarm_arrives := fun _ ha => nomatch ha
  line_eq_flag := by
    intro x
    cases x <;> exact BitVec.getLsbD_zero.symm
  ifr_sources_only := fun _ _ => BitVec.getLsbD_zero

theorem timerInv_resetTimer (h : p.bitPositions.Nodup) (now : Int) (t : Timer) :
    TimerInv p now (resetTimer now t) :=
  (timerInv_atReset h now).with_inert 0 0 t.diag

/-- Waiting does not move an expiry that still lies ahead. -/
theorem fireTime_later {a : Alarm} (hle : now ≤ later) (hdue : later ≤ fireTime now a) :
    fireTime later a = fireTime now a := by
  unfold fireTime at *
  omega

/-- The invariant holds on until the alarm expires. -/
theorem TimerInv.until_expiry (h : TimerInv p now t) (hle : now ≤ later)
    (hdue : ∀ a, t.alarm = some a → later ≤ fireTime now a) : TimerInv p later t where
  __ := h
  epoch_le := h.epoch_le.trans hle
  alarm_current := by
    intro a ha
    obtain ⟨τ, hτ, hτnow, rfl⟩ := h.alarm_current a ha
    exact ⟨τ, hτ, hτnow.trans hle, rfl⟩
  alarm_arrives := by
    intro a ha
    rw [fireTime_later hle (hdue a ha), h.alarm_arrives a ha]

/-! ### The invariant of the CPU side -/

/-- The part of the invariant of the machine that speaks of the CPU side. -/
structure CpuInv (m : MachineParams) (c : Cpu) : Prop where
  pending_length : c.pending.length = m.nSrc
  pc_fits : fitsPc m.pcWidth c.pc
  stack_whole : c.stack.length % m.pcWidth.bytes = 0

variable {m : MachineParams} {c c' : Cpu}

theorem machineInv_iff :
    MachineInv s ↔
      (∀ k u, unitAt s k = some u → TimerInv u.params s.now u.regs) ∧ CpuInv s.params s.cpu := by
  refine ⟨fun h => ⟨fun k u hu => h.units u (List.mem_of_getElem? hu), { h with }⟩, fun ⟨hunits, hcpu⟩ => ?_⟩
  refine { hcpu with units := fun u hu => ?_ }
  obtain ⟨k, hk⟩ := List.getElem?_of_mem hu
  exact hunits k u hk

theorem cpuInv_atReset (m : MachineParams) : CpuInv m (Cpu.atReset m) where
  pending_length := List.length_replicate
  pc_fits := by simp [Cpu.atReset, fitsPc]
  stack_whole := Nat.zero_mod _

theorem CpuInv.takeInterrupt (h : CpuInv m c) (target : Int) : CpuInv m (takeInterrupt m target c) where
  pending_length := h.pending_length
  pc_fits := toPc_fits ..
  stack_whole := by
    show (pushPc m.pcWidth c.pc c.stack).length % _ = 0
    rw [pushPc_length, Nat.add_mod_left, h.stack_whole]

theorem CpuInv.decisionPoint (h : CpuInv m c) : CpuInv m (decisionPoint m c) := by
  rcases decisionPoint_cases m c with ⟨-, hd⟩ | ⟨j, -, -, -, hd⟩ | ⟨-, -, hd⟩ <;> rw [hd]
  · exact { h.takeInterrupt m.resetVector with }
  · exact { h.takeInterrupt (vectorOf m j) with
      pending_length := (setPending_length ..).trans h.pending_length }
  · exact h

theorem CpuInv.returnFromInterrupt (h : CpuInv m c) (hr : returnFromInterrupt m c = some c') : CpuInv m c' := by
  obtain ⟨⟨pc, stack⟩, hpop, rfl⟩ := Option.map_eq_some_iff.1 hr
  obtain ⟨hfits, hlength⟩ := popPc_some hpop
  refine { h with pc_fits := hfits, stack_whole := ?_ }
  rw [← Nat.add_mod_right, hlength, h.stack_whole]

/-- Every operation keeps the invariant of the CPU side. -/
theorem exec_cpuInv (h : CpuInv s.params s.cpu) (he : exec i s = .next s') : CpuInv s'.params s'.cpu := by
  obtain ⟨-, ⟨u, t, r, -, -, rfl⟩ | ⟨u, a, -, -, -, -, rfl⟩ | ⟨-, rfl⟩ | ⟨b, -, rfl⟩ | ⟨c, -, hc, rfl⟩ | ⟨-, rfl⟩ |
    ⟨-, rfl⟩⟩ := exec_next he
  case inr.inl => exact { h with pending_length := (raiseFlags_pending_length ..).trans h.pending_length }
  case inr.inr.inl => exact h.decisionPoint
  case inr.inr.inr.inr.inl => exact h.returnFromInterrupt hc
  case inr.inr.inr.inr.inr.inr => exact { h with pending_length := (List.length_map ..).trans h.pending_length }
  all_goals exact { h with }

/-! ### The invariant of the machine -/

/-- Settles O59: every unit is at reset, and the CPU side is empty. -/
theorem invariantAtConstruction : Obligations.InvariantAtConstruction := by
  intro m ps τ hbits
  refine { cpuInv_atReset m with units := fun u hu => ?_ }
  obtain ⟨hp, hregs⟩ := mem_construct_timers hu
  rw [hregs]
  exact timerInv_atReset (hbits _ hp) τ

/-- A unit after an operation was there before it, with the same parameters (R46). -/
theorem exec_unitAt_before (h : exec i s = .next s') (hu' : unitAt s' k = some u') :
    ∃ u, unitAt s k = some u ∧ u'.params = u.params := by
  have hparams := congrArg (·[k]?) (exec_keeps_now_and_params h).2.2
  simp only [List.getElem?_map, show s'.timers[k]? = some u' from hu', Option.map_some] at hparams
  obtain ⟨u, hu, he⟩ := Option.map_eq_some_iff.1 hparams.symm
  exact ⟨u, hu, he.symm⟩

/-- Every operation keeps the invariant. -/
theorem exec_machineInv (h : MachineInv s) (he : exec i s = .next s') : MachineInv s' := by
  obtain ⟨hunits, hcpu⟩ := machineInv_iff.1 h
  refine machineInv_iff.2 ⟨fun k u' hu' => ?_, exec_cpuInv hcpu he⟩
  obtain ⟨u, hu, hparams⟩ := exec_unitAt_before he hu'
  have hinv := hunits k u hu
  rw [(exec_keeps_now_and_params he).1, hparams]
  rcases exec_unit_cases he hu hu' with rfl | ⟨-, hb⟩ | ⟨-, -, a, hr, -⟩ | ⟨-, hr⟩
  · exact hinv
  · exact hb.timerInv hinv
  · rw [hr]
    exact hinv.afterExpiry a
  · rw [hr]
    exact timerInv_resetTimer hinv.bits_distinct ..

/-- The invariant holds on until the first alarm expires. -/
theorem MachineInv.until_expiry (h : MachineInv s) (hle : s.now ≤ later)
    (hdue : ∀ k u a, unitAt s k = some u → u.regs.alarm = some a → later ≤ fireTime s.now a) :
    MachineInv { s with now := later } := by
  obtain ⟨hunits, hcpu⟩ := machineInv_iff.1 h
  exact machineInv_iff.2 ⟨fun k u hu => (hunits k u hu).until_expiry hle fun a => hdue k u a hu, hcpu⟩

/-- Time moves to the next expiry, and no alarm is left behind (R76). -/
theorem MachineInv.atExpiry (h : MachineInv s) {x : Int} (hx : nextExpiry s = some (k, x)) :
    MachineInv (atExpiry s k x) :=
  { h.until_expiry (now_le_of_nextExpiry hx) (nextExpiry_some hx).2 with }

/-- Time moves to the presented transaction, which comes before every expiry, and a program counter it brings
is cut to the machine's width (R42, R76). -/
theorem MachineInv.accept (h : MachineInv s) {x : Transaction} {rest : List Transaction}
    (hx : nextOperation s = .transaction x rest) (hle : s.now ≤ x.now) : MachineInv (accept s x rest) := by
  have hlater := h.until_expiry hle (nextOperation_transaction hx).2
  refine { hlater with pending_length := ?_, pc_fits := ?_, stack_whole := ?_ }
  · rw [accept_cpu]
    exact h.pending_length
  · rw [accept_cpu]
    cases x.pcIn with
    | none => exact h.pc_fits
    | some pc => exact toPc_fits ..
  · rw [accept_cpu]
    exact h.stack_whole

/-- Settles O60: the invariant holds on while time moves to the operation that comes next, and that operation, or the
fault mark a wrong width sets, keeps it. -/
theorem stepKeepsInvariant : Obligations.StepKeepsInvariant := by
  intro s s' h hs
  obtain ⟨-, ⟨k, x, hx, he⟩ | ⟨t, rest, hop, hnow, ⟨i, tail, -, he⟩ | rfl⟩⟩ := step_next hs
  · exact exec_machineInv (h.atExpiry hx) he
  · exact exec_machineInv (h.accept hop hnow) he
  · exact { h.accept hop hnow with }

end Sys2Proof.Machine

/-! PROOF. How a step takes up its operation: the place of a due alarm in the total order, the transaction as the
operation its bytes decode to, and the access width (`20_memory.md` R62, R63, R67, R75, R76, `60_exceptions.md` R261,
R266, R268). -/

namespace Sys2Proof.Machine

variable {s : State} {x : Transaction} {rest : List Transaction} {k : Nat} {time : Int} {i : Instr}

/-! ### The earliest of the armed alarms -/

/-- The armed alarms are listed in the order of their units. -/
theorem armedAlarms_pairwise (now : Int) (k : Nat) (us : List TimerUnit) :
    (armedAlarms now k us).Pairwise fun y z => y.1 < z.1 := by
  induction us generalizing k with
  | nil => exact List.Pairwise.nil
  | cons u us ih =>
    unfold armedAlarms
    split
    · refine List.pairwise_cons.2 ⟨fun y hy => ?_, ih (k + 1)⟩
      obtain ⟨j, -, -, -, hj, -⟩ := (mem_armedAlarms now (k + 1) us y.1 y.2).1 hy
      show k < y.1
      omega
    · exact ih (k + 1)

/-- In a list in the order of the units, `earliest` picks the lowest unit among those with the least time
(log entry 6). -/
theorem earliest_lowest {l : List (Nat × Int)} (hl : l.Pairwise fun y z => y.1 < z.1) {y : Nat × Int}
    (h : earliest l = some y) : ∀ z ∈ l, y.2 = z.2 → y.1 ≤ z.1 := by
  induction l generalizing y with
  | nil => cases h
  | cons b l ih =>
    obtain ⟨hb, hl⟩ := List.pairwise_cons.1 hl
    unfold earliest at h
    intro z hz htime
    split at h
    · cases h
      rcases List.mem_cons.1 hz with rfl | hz
      · exact le_rfl
      · exact (hb z hz).le
    · rename_i c hc
      split at h <;> cases h <;> rcases List.mem_cons.1 hz with rfl | hz
      · omega
      · exact ih hl hc z hz htime
      · exact le_rfl
      · exact (hb z hz).le

/-- An armed alarm that comes before every other, by its time and then by its unit, expires next. -/
theorem nextExpiry_eq_some {u : TimerUnit} {a : Alarm} (hu : unitAt s k = some u) (ha : u.regs.alarm = some a)
    (hfirst : ∀ k' u' a', unitAt s k' = some u' → u'.regs.alarm = some a' →
      fireTime s.now a < fireTime s.now a' ∨ (fireTime s.now a = fireTime s.now a' ∧ k ≤ k')) :
    nextExpiry s = some (k, fireTime s.now a) := by
  cases hx : nextExpiry s with
  | none => exact absurd ha (by simp [nextExpiry_none hx hu])
  | some y =>
    obtain ⟨j, τ⟩ := y
    obtain ⟨⟨u', a', hu', ha', rfl⟩, hle⟩ := nextExpiry_some hx
    have hmem : (k, fireTime s.now a) ∈ armedAlarms s.now 0 s.timers :=
      (mem_armedAlarms ..).2 ⟨k, u, a, hu, (Nat.zero_add k).symm, ha, rfl⟩
    have hlow : fireTime s.now a' = fireTime s.now a → j ≤ k :=
      earliest_lowest (armedAlarms_pairwise ..) hx _ hmem
    have htime : fireTime s.now a' = fireTime s.now a := by
      have := hle k u a hu ha
      have := hfirst j u' a' hu' ha'
      omega
    have hunit : j = k := by
      have := hlow htime
      have := hfirst j u' a' hu' ha'
      omega
    rw [hunit, htime]

/-! ### Which operation comes next -/

/-- Only a transaction that decodes to ALARM_FIRE announces an expiry. -/
theorem announcesExpiry_eq_false (h : ∀ tail, decode x.bytes ≠ .ok (.alarmFire, tail)) :
    announcesExpiry s x = false := by
  unfold announcesExpiry
  split
  · rename_i hdec _
    exact absurd hdec (h _)
  · rfl

/-- An alarm due at or before the next transaction, which is no ALARM_FIRE, comes before it (R76). -/
theorem nextOperation_eq_expiry (hin : s.inputs = x :: rest) (hx : nextExpiry s = some (k, time))
    (hdue : time ≤ x.now) (hword : ∀ tail, decode x.bytes ≠ .ok (.alarmFire, tail)) :
    nextOperation s = .expiry k time := by
  have hbefore : time < x.now ∨ time = x.now ∧ announcesExpiry s x = false :=
    hdue.lt_or_eq.imp_right fun htime => ⟨htime, announcesExpiry_eq_false hword⟩
  simp only [nextOperation, hin, hx, if_pos hbefore]

/-- With every armed alarm later than it, the next transaction comes next (R75). -/
theorem nextOperation_eq_transaction (hin : s.inputs = x :: rest)
    (hlater : ∀ k u a, unitAt s k = some u → u.regs.alarm = some a → x.now < fireTime s.now a) :
    nextOperation s = .transaction x rest := by
  cases hx : nextExpiry s with
  | none => simp only [nextOperation, hin, hx]
  | some y =>
    obtain ⟨⟨u, a, hu, ha, htime⟩, -⟩ := nextExpiry_some (k := y.1) (x := y.2) hx
    have hafter : x.now < y.2 := htime ▸ hlater _ u a hu ha
    have hnot : ¬(y.2 < x.now ∨ y.2 = x.now ∧ announcesExpiry s x = false) := by omega
    simp only [nextOperation, hin, hx, if_neg hnot]

/-! ### What a transaction is -/

/-- A word below 0x60 is of the BUS format (R90, R99). -/
theorem formatOf_bus {t : Byte} (h : t.toNat < 0x60) (tail : List Byte) : formatOf (t :: tail) = some .bus := by
  have hbit : t.getLsbD 7 = false := by
    rw [BitVec.getLsbD]
    exact Nat.testBit_lt_two_pow (by omega)
  have hspace : wordSpace t ≠ 3 := by
    rw [wordSpace, BitVec.extractLsb'_toNat, Nat.shiftRight_eq_div_pow]
    omega
  simp only [formatOf, hbit, hspace, Bool.false_eq_true, if_false]

/-- One byte wide and in time, a transaction is what its bytes decode to (R60, R63). -/
theorem fetch_eq_run {tail : List Byte} (hnow : s.now ≤ x.now) (hwidth : x.width = 1)
    (hdec : decode x.bytes = .ok (i, tail)) : fetch s x = .run i := by
  simp [fetch, hnow.not_gt, hwidth, hdec]

/-- A BUS transaction of another width, in time and for a unit that exists, is a violation (R67). -/
theorem fetch_eq_widthViolation (hnow : s.now ≤ x.now) (hbus : formatOf x.bytes = some .bus) (hwidth : x.width ≠ 1)
    (hunit : x.timer < s.timers.length) : fetch s x = .widthViolation := by
  simp [fetch, hnow.not_gt, hbus, hwidth, hunit]

/-! ### The step -/

theorem step_of_halted (hh : s.halted = true) : step s = .fault .hostAssert := ifRunning_of_halted hh _

theorem step_of_expiry (hh : s.halted = false) (hop : nextOperation s = .expiry k time) :
    step s = exec .alarmFire (atExpiry s k time) := by
  rw [step, ifRunning_of_not_halted hh, hop]

theorem step_of_run (hh : s.halted = false) (hop : nextOperation s = .transaction x rest)
    (hf : fetch s x = .run i) : step s = exec i (accept s x rest) := by
  simp only [step, ifRunning_of_not_halted hh, hop, hf]

theorem step_of_widthViolation (hh : s.halted = false) (hop : nextOperation s = .transaction x rest)
    (hf : fetch s x = .widthViolation) : step s = .next (raiseHostAssert (answer (accept s x rest) none)) := by
  simp only [step, ifRunning_of_not_halted hh, hop, hf]

/-- A program counter, cut to the width of the machine's, in natural numbers (R42). -/
theorem toPc_natCast (w : PcWidth) (n : Nat) : toPc w n = BitVec.ofNat 24 (n % 2 ^ (8 * w.bytes)) := by
  rw [toPc, ← BitVec.ofInt_natCast]
  push_cast
  rfl

/-- Settles O54: the alarm is the one that expires next, and its expiry comes before the transaction. -/
theorem dueAlarmExpiresFirst : Obligations.DueAlarmExpiresFirst := by
  intro s x rest k u a hh hin hword hu ha hdue hfirst
  have hx := nextExpiry_eq_some hu ha hfirst
  exact step_of_expiry hh (nextOperation_eq_expiry hin hx hdue hword)

/-- Settles O55: the transaction comes next and is fetched as a violation, which sets the fault mark and answers
nothing; the program counter alone may be another, which the CPU core has brought. -/
theorem wrongWidthHaltsTheMachine : Obligations.WrongWidthHaltsTheMachine := by
  intro s x rest t tail hh hin hnow hbytes hword hwidth hunit hlater
  have hbus : formatOf x.bytes = some .bus := hbytes ▸ formatOf_bus hword tail
  have hstep := step_of_widthViolation hh (nextOperation_eq_transaction hin hlater)
    (fetch_eq_widthViolation hnow hbus hwidth hunit)
  refine ⟨_, hstep, rfl, rfl, rfl, ?_, ?_, ?_, ?_, rfl, step_of_halted rfl⟩ <;> simp [accept_cpu]

/-- Settles O53: the transaction comes next and is fetched as its operation, and `accept` is the state the statement
writes out. -/
theorem stepRunsThePresentedOperation : Obligations.StepRunsThePresentedOperation := by
  intro s x rest i tail hh hin hnow hwidth hdec hlater
  rw [step_of_run hh (nextOperation_eq_transaction hin hlater) (fetch_eq_run hnow hwidth hdec)]
  unfold accept
  cases x.pcIn <;> simp only [toPc_natCast]

end Sys2Proof.Machine

/-! PROOF. Decoder and encoder are inverse (`30_encoding.md` R99 to R101). The decoder reads a first byte as a shape and
after it the operand of that shape. The word of an operation has the operation's shape; and a word of some shape is,
field by field, the word of the operations of that shape. -/

namespace Sys2Proof

variable {t : Byte} {sh : Shape} {i : Instr} {ops bs rest : List Byte}

/-! ### The decoder, by the shape of the word -/

/-- With the operand bytes `ops` beside it, a word of the shape is the operation `i` (R63, R263). -/
inductive Shape.Yields : Shape → Instr → List Byte → Prop
  | plain (i : Instr) : Yields (.plain i) i []
  | withByte (f : Byte → Instr) (v : Byte) : Yields (.withByte f) (f v) [v]
  | withBit (f : Bool → Instr) (b : Bool) : Yields (.withBit f) (f b) [if b then 1 else 0]

/-- A byte that is at most 1 is its lowest bit. -/
theorem ite_getLsbD_zero {v : Byte} (h : v.toNat ≤ 1) : (if v.getLsbD 0 then 1 else 0) = v := by
  obtain rfl | rfl : v = 0 ∨ v = 1 := by bv_omega
  · rfl
  · rfl

/-- The decoder reads the shape of the word, then the operand that the shape asks for. -/
theorem decode_cons_eq_ok_iff : decode (t :: bs) = .ok (i, rest) ↔
    ∃ sh ops, shapeOf t = .ok sh ∧ sh.Yields i ops ∧ bs = ops ++ rest := by
  constructor
  · intro h
    rw [decode] at h
    split at h
    case h_1 => cases h
    case h_2 j hsh =>
      cases h
      exact ⟨_, _, hsh, .plain i, rfl⟩
    case h_3 f hsh =>
      cases bs with
      | nil => cases h
      | cons v bs =>
        cases h
        exact ⟨_, _, hsh, .withByte f v, rfl⟩
    case h_4 f hsh =>
      cases bs with
      | nil => cases h
      | cons v bs =>
        dsimp only at h
        split at h
        case isTrue hv =>
          cases h
          exact ⟨_, _, hsh, .withBit f _, by rw [ite_getLsbD_zero hv]; rfl⟩
        case isFalse => cases h
  · rintro ⟨sh, ops, hsh, hy, rfl⟩
    cases hy with
    | plain | withByte => simp [decode, hsh]
    | withBit f b => cases b <;> simp [decode, hsh]

/-! ### An operation's word has the operation's shape -/

/-- The word of an operation asks for what stands beside it in the operation's bytes (R100). -/
theorem shapeOf_encodeWord (i : Instr) :
    ∃ sh, shapeOf (encodeWord i) = .ok sh ∧ sh.Yields i (encodeOperand i) := by
  cases i with
  | rdCra | rdCrb | rdCrc | rdRsv3 | rdCntl | rdCnth | rdIcrl | rdIcrh | rdOcral | rdOcrah | rdOcrbl | rdOcrbh
  | rdOcrcl | rdOcrch | rdImsk | rdIfr | alarmFire | decisionPoint | cpuReset | envReti | envResetReq =>
    exact ⟨_, rfl, .plain _⟩
  | wrCra v | wrCrb v | wrCrc v | wrRsv3 v | wrCntl v | wrCnth v | wrIcrl v | wrIcrh v | wrOcral v | wrOcrah v
  | wrOcrbl v | wrOcrbh v | wrOcrcl v | wrOcrch v | wrImsk v | wrIfr v =>
    exact ⟨_, by rw [encodeWord]; rfl, .withByte _ v⟩
  | envSetI b => exact ⟨_, by rw [encodeWord]; rfl, .withBit _ b⟩

/-! ### A word of some shape is the word of that shape's operations -/

theorem encode_of_mainRead {n : Nat} (h : mainRead n = some i) :
    (encodeWord i).toNat = n ∧ encodeOperand i = [] := by
  unfold mainRead at h
  split at h <;> cases h <;> exact ⟨rfl, rfl⟩

theorem encode_of_mainWrite {n : Nat} {f : Byte → Instr} (h : mainWrite n = some f) (v : Byte) :
    (encodeWord (f v)).toNat = 0x10 + n ∧ encodeOperand (f v) = [v] := by
  unfold mainWrite at h
  split at h <;> cases h <;> exact ⟨rfl, rfl⟩

theorem encode_of_event {n : Nat} (h : event n = some sh) (hy : sh.Yields i ops) :
    (encodeWord i).toNat = 0x60 + n ∧ encodeOperand i = ops := by
  unfold event at h
  split at h <;> cases h <;> cases hy <;> exact ⟨rfl, rfl⟩

/-- `dir` as a number is `T[4]` (R99). -/
theorem toNat_wordDir (t : Byte) : (wordDir t).toNat = t.toNat / 16 % 2 := by
  rw [wordDir, BitVec.getLsbD, Nat.toNat_testBit]

/-- A word of 7 bits is `space`, `dir` and `off`, from the highest bit down (R99). -/
theorem toNat_eq_of_fields (h7 : t.getLsbD 7 = false) :
    t.toNat = 32 * wordSpace t + 16 * (wordDir t).toNat + wordOff t := by
  have hlt : t.toNat < 128 := BitVec.toNat_lt_of_msb_false h7
  rw [toNat_wordDir, wordSpace, wordOff, BitVec.extractLsb'_toNat, BitVec.extractLsb'_toNat,
    Nat.shiftRight_eq_div_pow, Nat.shiftRight_zero]
  omega

/-- A word of 7 bits is `space` and, below it, the event number (R99). -/
theorem toNat_eq_of_event (h7 : t.getLsbD 7 = false) : t.toNat = 32 * wordSpace t + wordEvent t := by
  have hlt : t.toNat < 128 := BitVec.toNat_lt_of_msb_false h7
  rw [wordSpace, wordEvent, BitVec.extractLsb'_toNat, BitVec.extractLsb'_toNat, Nat.shiftRight_eq_div_pow,
    Nat.shiftRight_zero]
  omega

theorem wordSpace_lt (t : Byte) : wordSpace t < 4 := BitVec.isLt _

/-- A word of some shape is the word of the operations that the shape yields, field by field (R99 to R101). -/
theorem encode_of_shapeOf (hsh : shapeOf t = .ok sh) (hy : sh.Yields i ops) :
    encodeWord i = t ∧ encodeOperand i = ops := by
  rw [← BitVec.toNat_inj]
  unfold shapeOf at hsh
  split at hsh
  · cases hsh
  rename_i h7
  have hfields := toNat_eq_of_fields (Bool.eq_false_iff.2 h7)
  split at hsh
  case h_1 hspace hdir =>
    split at hsh <;> cases hsh
    rename_i hread
    cases hy
    obtain ⟨hword, hop⟩ := encode_of_mainRead hread
    exact ⟨by simp [hword, hfields, hspace, hdir], hop⟩
  case h_2 hspace hdir =>
    split at hsh <;> cases hsh
    rename_i hwrite
    cases hy with | withByte f v =>
    obtain ⟨hword, hop⟩ := encode_of_mainWrite hwrite v
    exact ⟨by simp [hword, hfields, hspace, hdir], hop⟩
  case h_3 hspace hdir | h_4 hspace hdir | h_5 hspace hdir | h_6 hspace hdir =>
    split at hsh <;> cases hsh
    rename_i hoff
    cases hy
    exact ⟨by simp [encodeWord, hfields, hspace, hdir, hoff], rfl⟩
  case h_7 =>
    split at hsh <;> cases hsh
    rename_i hevent
    obtain ⟨hword, hop⟩ := encode_of_event hevent hy
    -- each window has a case for either direction, so `space` is none of theirs
    have hlt := wordSpace_lt t
    have hspace : wordSpace t = 3 := by grind
    exact ⟨by rw [hword, toNat_eq_of_event (Bool.eq_false_iff.2 h7), hspace], hop⟩

/-! ### The words that name no operation -/

/-- The 7-bit words that R101 assigns to no operation. -/
def Unassigned (n : Nat) : Prop :=
  n = 0x0e ∨ n = 0x0f ∨ n = 0x1e ∨ n = 0x1f ∨ (0x21 ≤ n ∧ n ≤ 0x2f) ∨ (0x31 ≤ n ∧ n ≤ 0x3f) ∨
    (0x41 ≤ n ∧ n ≤ 0x4f) ∨ (0x51 ≤ n ∧ n ≤ 0x5f) ∨ (0x66 ≤ n ∧ n ≤ 0x7f)

/-- No operation has an unassigned word (R100, R101). -/
theorem not_unassigned_encodeWord (i : Instr) : ¬ Unassigned (encodeWord i).toNat := by
  cases i <;> rw [encodeWord, Unassigned] <;> decide

/-! ### The obligations -/

/-- Settles O1: the word has the operation's shape, and the decoder reads the operand of that shape. -/
theorem decodeInvertsEncode : Obligations.DecodeInvertsEncode := by
  intro i rest
  obtain ⟨sh, hsh, hy⟩ := shapeOf_encodeWord i
  exact decode_cons_eq_ok_iff.2 ⟨sh, encodeOperand i, hsh, hy, rfl⟩

/-- Settles O2: what is decoded is yielded by the word's shape, and then word and operand are the operation's own. -/
theorem encodeInvertsDecode : Obligations.EncodeInvertsDecode := by
  intro bytes rest i h
  cases bytes with
  | nil => cases h
  | cons t bs =>
    obtain ⟨sh, ops, hsh, hy, rfl⟩ := decode_cons_eq_ok_iff.1 h
    obtain ⟨rfl, rfl⟩ := encode_of_shapeOf hsh hy
    rfl

/-- A first byte that is no operation's word begins no operation, whatever follows it (R101). -/
theorem decode_cons_eq_error (h : ∀ i, encodeWord i ≠ t) (rest : List Byte) :
    ∃ e, decode (t :: rest) = .error e := by
  cases hdec : decode (t :: rest) with
  | error e => exact ⟨e, rfl⟩
  | ok r =>
    have hbytes := encodeInvertsDecode _ r.2 r.1 hdec
    exact absurd (List.cons.inj hbytes).1.symm (h r.1)

/-- Settles O4: 0x03 and 0x13 are words of operations and the listed words are none's; a word below 0x60 is of the BUS
format, and `fetch` checks that format's width before it decodes the word. -/
theorem reservedWordsNameNoOperation : Obligations.ReservedWordsNameNoOperation := by
  refine ⟨decodeInvertsEncode .rdRsv3, fun v => decodeInvertsEncode (.wrRsv3 v), ?_, ?_⟩
  · intro t rest hword
    exact decode_cons_eq_error (fun i hi => not_unassigned_encodeWord i (hi ▸ hword)) rest
  · intro s x t rest hbytes hword hwidth hnow hunit
    have hbus : formatOf x.bytes = some .bus := hbytes ▸ Machine.formatOf_bus hword rest
    exact Machine.fetch_eq_widthViolation hnow hbus hwidth hunit

/-- Settles O3: the decoder evaluated on the words of the map, one list of rows at a time. -/
theorem operationMapDecodes : Obligations.OperationMapDecodes :=
  ⟨rfl, rfl, rfl, rfl⟩

end Sys2Proof

/-! PROOF. The lazy counter (`40_counter_model.md` R122 to R128). Once it is known which tick an instant lies in, the
counter follows from `currentCount_eq_ofNat`; a counter write is a move of the epoch back by `value` ticks, so what is
read after it is the same law from the moved epoch. -/

namespace Sys2Proof.Machine

variable {t : Timer} {now : Int} {value : Word16} {k r : Nat}

/-- A stopped counter counts no tick (R122). -/
theorem elapsedTicks_stopped (h : t.periodNs = 0) (now : Int) : elapsedTicks t now = 0 := if_pos h

/-- At every phase `r` of the tick that begins `k` periods after the epoch, `k` ticks have elapsed (R128). -/
theorem elapsedTicks_phase (hr : r < t.periodNs) (k : Nat) :
    elapsedTicks t (t.epoch + k * t.periodNs + r) = k := by
  rw [elapsedTicks_eq_iff (Nat.zero_lt_of_lt hr), add_one_mul]
  omega

/-- The counter is the tick count cut to 16 bits (R124). -/
theorem currentCount_eq_ofNat (h : elapsedTicks t now = k) : currentCount t now = BitVec.ofNat 16 k := by
  rw [currentCount, h, BitVec.ofInt_natCast]

/-- `k` ticks after a counter write, at any phase, the counter has moved on by `k` (R126). -/
theorem currentCount_writeRaw (now : Int) (value : Word16) (k : Nat) (hr : r < t.periodNs) :
    currentCount (writeRaw now value t) (now + k * t.periodNs + r) = value + BitVec.ofNat 16 k := by
  have hfromEpoch : now + k * t.periodNs + r =
      (writeRaw now value t).epoch + (value.toNat + k : Nat) * (writeRaw now value t).periodNs + r := by
    rw [writeRaw_epoch, writeRaw_periodNs]
    push_cast
    ring
  rw [hfromEpoch, currentCount_eq_ofNat (elapsedTicks_phase (t := writeRaw now value t) hr _),
    BitVec.ofNat_add, BitVec.ofNat_toNat, BitVec.setWidth_eq]

/-- A write that moves the epoch back by no time is a reset of the counter (R125, R126). -/
theorem writeRaw_eq_resetToZero (now : Int) (h : value.toNat * t.periodNs = 0) :
    writeRaw now value t = resetToZero now t := by
  have hback : (value.toNat : Int) * t.periodNs = 0 := by exact_mod_cast h
  rw [writeRaw, resetToZero, hback, sub_zero]

/-- Settles O6: at every phase of its tick `k` ticks have elapsed. -/
theorem lazyCountLaw : Obligations.LazyCountLaw := by
  intro t k r hr
  rw [currentCount_eq_ofNat (elapsedTicks_phase hr k), BitVec.toNat_ofNat]

/-- Settles O7: after a reset the lazy-count law counts from the new epoch; after a write it counts from `value`, of
which the tick of the write and the tick after it are read; and the two epochs agree where `value` ticks take no
time. -/
theorem counterWriteReadsBack : Obligations.CounterWriteReadsBack := by
  intro t now value
  refine ⟨rfl, currentCount_epoch rfl, fun k r hr => lazyCountLaw (resetToZero now t) k r hr, rfl,
    fun hrun => ⟨fun d hd => ?_, ?_⟩, ?_, fun hstop => ?_⟩
  · simpa using currentCount_writeRaw now value 0 hd
  · simpa using currentCount_writeRaw now value 1 hrun
  · exact writeRaw_eq_resetToZero now (Nat.zero_mul _)
  · exact writeRaw_eq_resetToZero now (by rw [hstop, Nat.mul_zero])

/-- Settles O5: stopped, no tick elapses; running, the elapsed ticks are the quotient of R122. -/
theorem counterIsElapsedTicksModulo : Obligations.CounterIsElapsedTicksModulo := by
  intro t now
  refine ⟨fun hstop => ⟨elapsedTicks_stopped hstop now, currentCount_stopped hstop now⟩,
    fun hrun => ⟨elapsedTicks_running hrun now, ?_⟩⟩
  rw [currentCount_toInt, elapsedTicks_running hrun]

end Sys2Proof.Machine

/-! PROOF. The register file (`41_register_file.md` R141 to R174). A bus operation is what `afterBus` says of the
addressed unit (`exec_bus`); a read that keeps the registers and an ignored write are its inert case
(`exec_bus_inert`). What is left of each obligation is the unit after the operation with its bytes as numbers. -/

namespace Sys2Proof.Machine

variable {i j : Instr} {s s1 s2 : State} {u u1 u2 : TimerUnit} {p : TimerParams} {now : Int} {t : Timer}

/-- A bus operation that keeps the registers of its unit only returns its byte. -/
theorem exec_bus_inert (h : Addresses s u) {r : Option Byte}
    (hb : afterBus i u.params s.now u.regs = some (u.regs, r)) : exec i s = .next (onlyReturns s r) := by
  rw [exec_bus h hb, unitChanged_same h]

/-! ### Reads -/

/-- Settles O11: these reads keep the registers. -/
theorem controlAndLatchReads : Obligations.ControlAndLatchReads := by
  intro s u hu
  exact ⟨⟨rfl, exec_bus_inert hu rfl⟩, ⟨rfl, exec_bus_inert hu rfl⟩, ⟨rfl, exec_bus_inert hu rfl⟩,
    ⟨rfl, exec_bus_inert hu rfl⟩, ⟨rfl, exec_bus_inert hu rfl⟩⟩

/-- Settles O12: these reads keep the registers, and the bytes of a compare register are its two halves. -/
theorem compareMaskAndFlagReads : Obligations.CompareMaskAndFlagReads := by
  intro s u hu
  simp only [← lowByte_eq, ← highByte_eq]
  exact ⟨⟨rfl, exec_bus_inert hu rfl⟩, ⟨rfl, exec_bus_inert hu rfl⟩, ⟨rfl, exec_bus_inert hu rfl⟩,
    ⟨rfl, exec_bus_inert hu rfl⟩, ⟨rfl, exec_bus_inert hu rfl⟩, ⟨rfl, exec_bus_inert hu rfl⟩,
    ⟨rfl, exec_bus_inert hu rfl⟩, ⟨rfl, exec_bus_inert hu rfl⟩⟩

/-- Settles O13: the byte returned and the byte latched are the two halves of one value. -/
theorem lowByteReadsLatchTheHighByte : Obligations.LowByteReadsLatchTheHighByte := by
  intro s u hu
  simp only [← lowByte_eq, ← highByte_eq]
  exact ⟨⟨rfl, exec_bus hu rfl⟩, ⟨rfl, exec_bus hu rfl⟩⟩

/-- Settles O14: the read and the write of the reserved offset keep the registers. -/
theorem reservedOffsetIsInert : Obligations.ReservedOffsetIsInert := by
  intro s u v hu
  exact ⟨exec_bus_inert hu rfl, exec_bus_inert hu rfl⟩

/-! ### The unit after a write, with its bytes as numbers -/

/-- WR_CRA (R142, R271). -/
theorem writeCra_eq (v : Byte) (p : TimerParams) (now : Int) (t : Timer) :
    writeCra v p now t = rearm p now { t with
      cra := v
      diag := t.diag ++ if 4 ≤ v.toNat then [⟨.comparePin, now⟩] else [] } := by
  simp only [writeCra, addDiagIf_eq, asksComparePin_eq, decide_eq_true_eq]

/-- WR_CRB before the clock and Rearm (R144): the byte stored, and the diagnostics its bits ask for (R272, R274). -/
def storedCrb (v : Byte) (now : Int) (t : Timer) : Timer :=
  { t with
    crb := v
    diag := t.diag ++ (if 32 ≤ v.toNat then [⟨.captureNoise, now⟩] else []) ++
      (if 6 ≤ v.toNat % 8 then [⟨.extClock, now⟩] else []) }

/-- WR_CRB (R144): the clock is recomputed exactly when the selector, bits 2:0, changes. -/
theorem writeCrb_eq (v : Byte) (p : TimerParams) (now : Int) (t : Timer) :
    writeCrb v p now t = rearm p now (if v.toNat % 8 = t.crb.toNat % 8 then storedCrb v now t
      else clockUpdate p now (storedCrb v now t)) := by
  simp only [writeCrb, storedCrb, addDiagIf_eq, asksCaptureNoise_eq, asksExtClock_eq, decide_eq_true_eq, clockSel,
    csField_eq]

/-- WR_CRC (R146, R273). -/
theorem writeCrc_eq (v : Byte) (p : TimerParams) (now : Int) (t : Timer) :
    writeCrc v p now t = { t with
      crc := v
      diag := t.diag ++ if v &&& p.crcForceMask ≠ 0 then [⟨.forceCompare, now⟩] else [] } := by
  simp only [writeCrc, addDiagIf_eq, asksForceCompare, decide_eq_true_eq]

/-- WR_CNTL (R150): the epoch goes back by as many periods as the pair counts (R126). -/
theorem writeCntl_eq (v : Byte) (p : TimerParams) (now : Int) (t : Timer) :
    writeCntl v p now t = rearm p now { t with
      epoch := now - (t.tempHigh.toNat * 256 + v.toNat : Nat) * t.periodNs } := by
  rw [writeCntl, writeRaw, joinBytes_toNat]

/-- WR_ICRL in capture-top mode (R154). -/
theorem writeIcrl_capture (v : Byte) (now : Int) (hm : modeClass p t = .ctcIcr) :
    writeIcrl v p now t = rearm p now { t with icr := BitVec.ofNat 16 (t.tempHigh.toNat * 256 + v.toNat) } := by
  rw [writeIcrl, if_pos hm, joinBytes_eq]

/-- WR_ICRL in every other mode (R154). -/
theorem writeIcrl_ignored (v : Byte) (now : Int) (hm : modeClass p t ≠ .ctcIcr) : writeIcrl v p now t = t :=
  if_neg hm

/-! ### Writes -/

/-- Settles O15: the unit after the write is that of `writeCra_eq`, where a bit of 7:2 is set exactly from 4 on. -/
theorem controlAWrite : Obligations.ControlAWrite := by
  intro s u v hu
  rw [← writeCra_eq]
  exact ⟨rfl, exec_bus hu rfl⟩

/-- Settles O16: one case per branch of R144. -/
theorem controlBWrite : Obligations.ControlBWrite := by
  intro s u v hu
  have hexec : exec (.wrCrb v) s = .next (unitChanged s u (writeCrb v u.params s.now u.regs) none) :=
    exec_bus hu rfl
  rw [writeCrb_eq] at hexec
  constructor
  · intro hsame
    rwa [if_pos hsame] at hexec
  · intro hchange
    rwa [if_neg hchange] at hexec

/-- Settles O17: `writeCrc` runs no Rearm and sets no flag, and the decided mask is bits 7:5. -/
theorem controlCWrite : Obligations.ControlCWrite := by
  intro s u v hu
  constructor
  · rw [← writeCrc_eq]
    exact exec_bus hu rfl
  · intro hmask
    rw [hmask]
    exact and_e0_ne_zero v

/-- Settles O18: the counter write of the latch and the byte. -/
theorem counterLowWriteCommitsThePair : Obligations.CounterLowWriteCommitsThePair := by
  intro s u v hu
  rw [← writeCntl_eq]
  exact ⟨rfl, exec_bus hu rfl⟩

/-- Settles O19: one case per branch of R154. -/
theorem captureLowWriteOnlyInCaptureTopMode : Obligations.CaptureLowWriteOnlyInCaptureTopMode := by
  intro s u v hu
  refine ⟨rfl, fun hm => ?_, fun hm => ?_⟩
  · rw [← writeIcrl_capture v s.now hm]
    exact exec_bus hu rfl
  · apply exec_bus_inert hu
    rw [afterBus, writeIcrl_ignored v s.now hm]

/-- Settles O20: WR_CNTH writes the latch in every mode, WR_ICRH on one side of the mode test of R156. -/
theorem highByteWritesStageTheLatch : Obligations.HighByteWritesStageTheLatch := by
  intro s u v hu
  refine ⟨exec_bus hu rfl, fun hm => exec_bus hu ?_, fun hm => exec_bus_inert hu ?_⟩
  · rw [afterBus, if_pos hm]
  · rw [afterBus, if_neg hm]

/-- Settles O21: the new value of a compare register is its old one with the half replaced. -/
theorem compareHalfWrites : Obligations.CompareHalfWrites := by
  intro s u v hu
  simp only [← withLow_eq, ← withHigh_eq]
  exact ⟨⟨rfl, exec_bus hu rfl⟩, ⟨rfl, exec_bus hu rfl⟩, ⟨rfl, exec_bus hu rfl⟩, ⟨rfl, exec_bus hu rfl⟩,
    ⟨rfl, exec_bus hu rfl⟩, ⟨rfl, exec_bus hu rfl⟩⟩

/-- Settles O22: Rearm writes neither the flags nor the lines. -/
theorem maskWrite : Obligations.MaskWrite := by
  intro s u v hu
  exact ⟨exec_bus hu rfl, rearm_ifr .., rearm_line ..⟩

/-- Settles O23: the loop of R172 writes flags and lines only, each by the bit of its own source. -/
theorem flagsWriteOneToClear : Obligations.FlagsWriteOneToClear := by
  intro s u v hu hbits
  exact ⟨rfl, ackFlags u.params v u.regs, exec_bus hu rfl, ackFlags_timer .., ackFlags_flag hbits v u.regs,
    fun j hj => ackFlags_other _ v u.regs hj, ackFlags_line hbits v u.regs⟩

/-! ### The two halves of a 16-bit access -/

/-- A read that returns the low half of `w` and latches the high half, then, with the latch as that read left it, a
read that returns the latch: together they return `w` (R173). -/
theorem latched_read_pair {w : Word16} (hu : Addresses s u) (hu2 : Addresses s2 u2)
    (hlow : afterBus i u.params s.now u.regs = some ({ u.regs with tempHigh := highByte w }, some (lowByte w)))
    (hhigh : afterBus j u2.params s2.now u2.regs = some (u2.regs, some u2.regs.tempHigh))
    (hexec : exec i s = .next s1) (hu1 : unitAt s1 s1.sel = some u1)
    (hlatch : u2.regs.tempHigh = u1.regs.tempHigh) :
    ∃ s3 lo hi, s1.result = some lo ∧ exec j s2 = .next s3 ∧ s3.result = some hi ∧
      hi.toNat * 256 + lo.toNat = w.toNat := by
  rw [exec_bus hu hlow] at hexec
  cases hexec
  refine ⟨_, lowByte w, highByte w, rfl, exec_bus_inert hu2 hhigh, ?_, ?_⟩
  · obtain ⟨-, hunit⟩ := addresses_unitChanged hu { u.regs with tempHigh := highByte w } (some (lowByte w))
    cases Option.some.inj (hu1.symm.trans hunit)
    exact congrArg some hlatch
  · rw [highByte_toNat, lowByte_toNat, Nat.div_add_mod']

/-- Settles O51: a low-byte read of the counter, and of the capture register, latches the other half of the value it
returns. -/
theorem sixteenBitReadIsAtomic : Obligations.SixteenBitReadIsAtomic := by
  intro s s2 u u2 hu hu2
  exact ⟨fun s1 u1 => latched_read_pair hu hu2 rfl rfl, fun s1 u1 => latched_read_pair hu hu2 rfl rfl⟩

/-- After WR_CNTL a running counter reads the latch and the byte at once (R126, R150). -/
theorem currentCount_writeCntl (hrun : 0 < t.periodNs) (v : Byte) (p : TimerParams) (now : Int) :
    (currentCount (writeCntl v p now t) now).toNat = t.tempHigh.toNat * 256 + v.toNat := by
  have hread : currentCount (writeRaw now (joinBytes t.tempHigh v) t) now = joinBytes t.tempHigh v := by
    simpa using currentCount_writeRaw now (joinBytes t.tempHigh v) 0 hrun
  rw [writeCntl, rearm_currentCount, hread, joinBytes_toNat]

/-- Settles O52: WR_CNTL finds the high byte in the latch where WR_CNTH has put it. -/
theorem sixteenBitWriteIsAtomic : Obligations.SixteenBitWriteIsAtomic := by
  intro s u h l later hu hrun
  obtain ⟨hrunning, hunit⟩ := addresses_unitChanged hu { u.regs with tempHigh := h } none
  have hstaged : Addresses { unitChanged s u { u.regs with tempHigh := h } none with now := later }
      { u with regs := { u.regs with tempHigh := h } } := ⟨hrunning, hunit⟩
  exact ⟨_, _, _, exec_bus hu rfl, exec_bus hstaged rfl, (addresses_unitChanged hstaged _ none).2,
    currentCount_writeCntl (t := { u.regs with tempHigh := h }) hrun l u.params later⟩

end Sys2Proof.Machine

/-! PROOF. The mode controller (`42_mode_controller.md` R193 to R199): the class the mode number selects, the top of the
class as a bound on the event Rearm chooses, and the clock a selector derives. -/

namespace Sys2Proof.Machine

variable {p : TimerParams} {t : Timer} {top c v : Word16} {q : Bool} {fBaseHz cs d : Nat}

/-! ### The class of a mode number -/

/-- With three distinct mode numbers each class has its own, and PWM every other (R194). -/
theorem modeClass_iff (h : p.modeNumbers.Nodup) :
    (modeClass p t = .normal ↔ wgm t = p.modeNormal) ∧ (modeClass p t = .ctcA ↔ wgm t = p.modeCtcA) ∧
      (modeClass p t = .ctcIcr ↔ wgm t = p.modeCtcIcr) ∧ (modeClass p t = .pwm ↔ wgm t ∉ p.modeNumbers) := by
  obtain ⟨⟨hna, hni⟩, hai⟩ :
      (p.modeNormal ≠ p.modeCtcA ∧ p.modeNormal ≠ p.modeCtcIcr) ∧ p.modeCtcA ≠ p.modeCtcIcr := by
    simpa [TimerParams.modeNumbers] using h
  by_cases hn : wgm t = p.modeNormal
  · simp [modeClass, TimerParams.modeNumbers, hn, hna, hni]
  by_cases ha : wgm t = p.modeCtcA
  · simp [modeClass, TimerParams.modeNumbers, ha, hna.symm, hai]
  by_cases hi : wgm t = p.modeCtcIcr
  · simp [modeClass, TimerParams.modeNumbers, hi, hni.symm, hai.symm]
  · simp [modeClass, TimerParams.modeNumbers, hn, ha, hi]

/-- Settles O8: the decided numbers are distinct, so that they too are a case of `modeClass_iff`. -/
theorem modeClassFollowsControlBits : Obligations.ModeClassFollowsControlBits := by
  intro p t
  refine ⟨wgm_toNat t, modeClass_iff, fun hdecided => ?_⟩
  obtain ⟨hn, ha, hi, -⟩ := modeClass_iff (t := t) (p := p) (hdecided ▸ by decide)
  obtain ⟨hnormal, hctcA, hctcIcr⟩ : p.modeNormal = 0 ∧ p.modeCtcA = 4 ∧ p.modeCtcIcr = 12 := by
    simpa [TimerParams.modeNumbers] using hdecided
  rw [hn, ha, hi, hnormal, hctcA, hctcIcr]
  exact ⟨BitVec.toNat_eq, BitVec.toNat_eq, BitVec.toNat_eq⟩

/-! ### The top bounds the alarm -/

/-- A mode with a top is one of the three supported ones, each with its own top (R195). -/
theorem effectiveTop_eq_some_iff :
    effectiveTop p t = some top ↔
      (modeClass p t = .normal ∧ top = 0xFFFF) ∨ (modeClass p t = .ctcA ∧ top = t.ocra) ∨
        (modeClass p t = .ctcIcr ∧ top = t.icr) := by
  unfold effectiveTop
  cases modeClass p t <;> simp [eq_comm]

/-- One `if` of R212 never raises the best so far. -/
theorem consider_le_best (q : Bool) (kind : EventKind) (v c : Word16) (best : EventKind × Word16) :
    (consider q kind v c best).2.toNat ≤ best.2.toNat := by
  rcases consider_cases q kind v c best with ⟨he, -, -, hlt⟩ | ⟨he, -⟩ <;> rw [he]
  exact hlt.le

/-- After the `if` of a candidate above the counter, the best is not above that candidate. -/
theorem consider_le_candidate (hq : q = true) (hv : c.toNat < v.toNat) (kind : EventKind)
    (best : EventKind × Word16) : (consider q kind v c best).2.toNat ≤ v.toNat := by
  rcases consider_cases q kind v c best with ⟨he, -⟩ | ⟨he, hle⟩ <;> rw [he]
  exact hle hq hv

/-- A counter below the top reaches the chosen event no later than the top: the top is itself a candidate of R212, and
no `if` after its own raises the choice. -/
theorem nextEvent_le_top (htop : effectiveTop p t = some top) (hc : c.toNat < top.toNat) :
    (nextEvent p t c).2.toNat ≤ top.toNat := by
  rcases effectiveTop_eq_some_iff.1 htop with ⟨-, rfl⟩ | ⟨hm, rfl⟩ | ⟨hm, rfl⟩
  · exact Nat.le_of_lt_succ (BitVec.isLt _)
  · refine (consider_le_best ..).trans <| (consider_le_best ..).trans <| consider_le_candidate ?_ hc ..
    simp [hm]
  · refine (consider_le_best ..).trans <| (consider_le_best ..).trans <| (consider_le_best ..).trans <|
      consider_le_candidate ?_ hc ..
    simp [hm]

/-- Settles O9: a mode with a top is supported, so that a running timer arms the event R212 chooses. -/
theorem alarmNotAboveTheTop : Obligations.AlarmNotAboveTheTop := by
  intro p t now top hrun htop
  have hcases := effectiveTop_eq_some_iff.1 htop
  have hsupported : modeClass p t ≠ .pwm := by
    rcases hcases with ⟨hm, -⟩ | ⟨hm, -⟩ | ⟨hm, -⟩ <;> simp [hm]
  refine ⟨fun hm => by simpa [hm] using hcases, fun hm => by simpa [hm] using hcases,
    fun hm => by simpa [hm] using hcases, hsupported, nextAlarm p now t, ?_, nextEvent_le_top htop⟩
  rw [rearm_running hrun hsupported]

/-! ### The clock a selector derives -/

/-- The selectors with a divider, and their dividers (R97). -/
theorem freqOf_eq_div (h : (cs, d) ∈ [(1, 1), (2, 8), (3, 64), (4, 256), (5, 1024)]) (fBaseHz : Nat) :
    freqOf fBaseHz cs = fBaseHz / d := by
  simp only [List.mem_cons, List.not_mem_nil, or_false, Prod.mk.injEq] at h
  rcases h with ⟨rfl, rfl⟩ | ⟨rfl, rfl⟩ | ⟨rfl, rfl⟩ | ⟨rfl, rfl⟩ | ⟨rfl, rfl⟩ <;> rfl

/-- The selector 0 and the external clocks have no divider: the timer is stopped (R97, R196). -/
theorem freqOf_eq_zero (h : cs = 0 ∨ 6 ≤ cs) (fBaseHz : Nat) : freqOf fBaseHz cs = 0 := by
  have hdivider : divider cs = 0 := by
    unfold divider
    split <;> omega
  exact if_pos hdivider

/-- A zero frequency is the stopped state (R196). -/
theorem periodOf_eq_zero (h : freqOf fBaseHz cs = 0) : periodOf fBaseHz cs = 0 := if_pos h

/-- A nonzero frequency gives the second floor division (R196). -/
theorem periodOf_eq_div (h : 0 < freqOf fBaseHz cs) : periodOf fBaseHz cs = 1000000000 / freqOf fBaseHz cs :=
  if_neg h.ne'

/-- Settles O10: ClockUpdate writes the frequency and the period of the selector, bits 2:0 of Control B, and the
epoch when a stopped timer starts (R197). -/
theorem clockUpdateDerivesPeriod : Obligations.ClockUpdateDerivesPeriod := by
  intro p now t
  rw [← csField_eq]
  exact ⟨freqOf p.fBaseHz (clockSel t), periodOf p.fBaseHz (clockSel t), _, rfl,
    fun d hd => freqOf_eq_div hd p.fBaseHz, fun hnone => freqOf_eq_zero hnone p.fBaseHz,
    periodOf_eq_zero, periodOf_eq_div, fun hstarts => if_pos hstarts, fun hkept => if_neg hkept⟩

end Sys2Proof.Machine

/-! PROOF. The alarm scheduler (`43_alarm_scheduler.md` R211 to R219). The chain of `if`s in R212 is followed row by row
of R211's table: after each row the best so far is the least of the candidates up to that row (`Best`). That the least
candidate is unique makes a further Rearm choose the same event. The deadline is told in ticks: it lies as many ticks
ahead as the counter is below the target, and up to it the counter counts up without wrapping. -/

namespace Sys2Proof.Machine

variable {p : TimerParams} {t : Timer} {c c' v : Word16} {now later : Int} {kind : EventKind} {q : Bool} {n : Nat}
  {ev ev' : EventKind × Word16} {s : State} {u : TimerUnit}

/-! ### The chosen event is the least candidate -/

theorem priority_injective : Function.Injective priority := by
  intro k k' h
  cases k <;> cases k' <;> first | rfl | cases h

/-- A candidate lies above the counter, or it is Overflow, the one that R219 lets through at equality. -/
theorem Candidate.lt_or_overflow (h : Candidate p t c kind v) :
    c.toNat < v.toNat ∨ (kind, v) = (.overflow, 0xFFFF) := by
  cases kind with
  | overflow => exact .inr (by rw [h.2])
  | _ => exact .inl h.2.2

/-- While the counter counts up, no candidate comes back. -/
theorem Candidate.at_earlier_count (h : Candidate p t c' kind v) (hc : c.toNat ≤ c'.toNat) :
    Candidate p t c kind v := by
  cases kind with
  | overflow => exact h
  | _ => exact ⟨h.1, h.2.1, hc.trans_lt h.2.2⟩

/-- A candidate stays one until the counter reaches it. -/
theorem Candidate.at_later_count (h : Candidate p t c kind v) (hc : c'.toNat < v.toNat) : Candidate p t c' kind v := by
  cases kind with
  | overflow => exact h
  | _ => exact ⟨h.1, h.2.1, hc⟩

/-- The event `ev` is the best of the first `n` rows of R211 at counter value `c`: least in value and, among equal
values, first in the table. Overflow is what the choice starts from, in a PWM mode too. -/
structure Best (p : TimerParams) (t : Timer) (c : Word16) (n : Nat) (ev : EventKind × Word16) : Prop where
  overflow_or_candidate : ev = (.overflow, 0xFFFF) ∨ Candidate p t c ev.1 ev.2
  priority_le : priority ev.1 ≤ n
  least : ∀ k v, Candidate p t c k v → priority k ≤ n →
    ev.2.toNat < v.toNat ∨ (ev.2 = v ∧ priority ev.1 ≤ priority k)

theorem best_overflow (p : TimerParams) (t : Timer) (c : Word16) : Best p t c 1 (.overflow, 0xFFFF) where
  overflow_or_candidate := .inl rfl
  priority_le := le_rfl
  least := fun k v hcand hk => by
    cases k with
    | overflow => exact .inr ⟨hcand.2.symm, le_rfl⟩
    | _ => exact absurd hk (by decide)

/-- One `if` of R212 brings the best of `n` rows to the best of `n + 1`, when it tests the candidate of the next row. -/
theorem Best.after_consider (h : Best p t c n ev) (hn : priority kind = n + 1)
    (hrow : ∀ w, Candidate p t c kind w ↔ q = true ∧ w = v ∧ c.toNat < w.toNat) :
    Best p t c (n + 1) (consider q kind v c ev) := by
  have hrows : ∀ k, priority k ≤ n + 1 → k = kind ∨ priority k ≤ n := fun k hk =>
    (Nat.le_succ_iff.1 hk).symm.imp_left fun he => priority_injective (he.trans hn.symm)
  rcases consider_cases q kind v c ev with ⟨he, hq, hcv, hlt⟩ | ⟨he, hstay⟩ <;> rw [he]
  · refine ⟨.inr ((hrow v).2 ⟨hq, rfl, hcv⟩), hn.le, fun k w hcand hk => ?_⟩
    rcases hrows k hk with rfl | hk
    · exact .inr ⟨((hrow w).1 hcand).2.1.symm, le_rfl⟩
    · rcases h.least k w hcand hk with hw | ⟨rfl, -⟩
      · exact .inl (hlt.trans hw)
      · exact .inl hlt
  · refine ⟨h.overflow_or_candidate, Nat.le_succ_of_le h.priority_le, fun k w hcand hk => ?_⟩
    rcases hrows k hk with rfl | hk
    · obtain ⟨hq, rfl, hcw⟩ := (hrow w).1 hcand
      have := h.priority_le
      exact (hstay hq hcw).lt_or_eq.imp_right fun heq => ⟨BitVec.eq_of_toNat_eq heq, by omega⟩
    · exact h.least k w hcand hk

/-- The event Rearm chooses is the best of all five rows (R212, R215). -/
theorem best_nextEvent (p : TimerParams) (t : Timer) (c : Word16) : Best p t c 5 (nextEvent p t c) := by
  refine ((((best_overflow p t c).after_consider rfl ?_).after_consider rfl ?_).after_consider rfl ?_).after_consider
    rfl ?_
  all_goals simp [Candidate, Timer.enabled, bitOf]

theorem priority_le_five (k : EventKind) : priority k ≤ 5 := by
  cases k <;> decide

/-- No candidate is below the chosen event, and none of equal value is of higher priority. -/
theorem nextEvent_least (h : Candidate p t c kind v) :
    (nextEvent p t c).2.toNat < v.toNat ∨
      ((nextEvent p t c).2 = v ∧ priority (nextEvent p t c).1 ≤ priority kind) :=
  (best_nextEvent p t c).least kind v h (priority_le_five kind)

/-- In a supported mode Overflow is a candidate, so that the chosen event always is one. -/
theorem candidate_nextEvent (hm : modeClass p t ≠ .pwm) (c : Word16) :
    Candidate p t c (nextEvent p t c).1 (nextEvent p t c).2 := by
  rcases (best_nextEvent p t c).overflow_or_candidate with he | hcand
  · rw [he]
    exact ⟨hm, rfl⟩
  · exact hcand

/-- The chosen event lies above the counter, or it is Overflow (R219). -/
theorem lt_nextEvent_or_overflow (p : TimerParams) (t : Timer) (c : Word16) :
    c.toNat < (nextEvent p t c).2.toNat ∨ nextEvent p t c = (.overflow, 0xFFFF) :=
  (best_nextEvent p t c).overflow_or_candidate.elim .inr Candidate.lt_or_overflow

/-- Two candidates of which neither comes after the other are the same. -/
theorem eq_of_mutually_least
    (h : ev.2.toNat < ev'.2.toNat ∨ (ev.2 = ev'.2 ∧ priority ev.1 ≤ priority ev'.1))
    (h' : ev'.2.toNat < ev.2.toNat ∨ (ev'.2 = ev.2 ∧ priority ev'.1 ≤ priority ev.1)) : ev = ev' := by
  rcases h with hlt | ⟨hv, hk⟩ <;> rcases h' with hlt' | ⟨hv', hk'⟩
  · omega
  · rw [hv'] at hlt
    exact absurd hlt (lt_irrefl _)
  · rw [hv] at hlt'
    exact absurd hlt' (lt_irrefl _)
  · exact Prod.ext (priority_injective (hk.antisymm hk')) hv

/-- Until the counter reaches the chosen event, the choice stays the same. -/
theorem nextEvent_eq_of_count_below (hm : modeClass p t ≠ .pwm) (hle : c.toNat ≤ c'.toNat)
    (hlt : c'.toNat < (nextEvent p t c).2.toNat) : nextEvent p t c' = nextEvent p t c :=
  eq_of_mutually_least
    (nextEvent_least ((candidate_nextEvent hm c).at_later_count hlt))
    (nextEvent_least ((candidate_nextEvent hm c').at_earlier_count hle))

/-- Settles O24: the three branches of R212, with the choice of the last one by `best_nextEvent`. -/
theorem rearmArmsTheNextEvent : Obligations.RearmArmsTheNextEvent := by
  intro p t now
  exact ⟨rearm_stopped, rearm_pwm, fun hrun hm => ⟨nextAlarm p now t, rearm_running hrun hm,
    candidate_nextEvent hm _, fun _ _ => nextEvent_least, rfl⟩⟩

/-! ### Compare C -/

/-- A row that is not enabled takes nothing over. -/
theorem consider_of_disabled (h : q = false) : consider q kind v c ev = ev := by
  simp [consider, h]

/-- Where compare B is disabled its register is not looked at. -/
theorem nextEvent_with_ocrb (h : t.enabled p .ocb = false) (w c : Word16) :
    nextEvent p { t with ocrb := w } c = nextEvent p t c := by
  have h' : ({ t with ocrb := w } : Timer).enabled p .ocb = false := h
  simp only [nextEvent, consider_of_disabled h, consider_of_disabled h']
  rfl

/-- Settles O25: compare C is chosen as a candidate of its own row of R211, and it bounds the choice as one. -/
theorem compareCUsesItsOwnRegister : Obligations.CompareCUsesItsOwnRegister := by
  intro p t c w
  refine ⟨fun hkind => ?_, fun hmask => nextEvent_with_ocrb hmask w c, fun hmask hlt => ?_⟩
  · rcases (best_nextEvent p t c).overflow_or_candidate with he | hcand
    · rw [he] at hkind
      cases hkind
    · rw [hkind] at hcand
      obtain ⟨-, hv, hlt⟩ := hcand
      exact ⟨hv, hv ▸ hlt⟩
  · have hcand : Candidate p t c .compareC t.ocrc := ⟨hmask, rfl, hlt⟩
    rcases nextEvent_least hcand with hbelow | ⟨heq, -⟩
    · exact hbelow.le
    · rw [heq]

/-! ### The deadline in ticks -/

/-- Fewer than `k` ticks have elapsed exactly before the instant `k` periods after the epoch. -/
theorem elapsedTicks_lt_iff (h : 0 < t.periodNs) (now k : Int) :
    elapsedTicks t now < k ↔ now < t.epoch + k * t.periodNs := by
  have hp : (0 : Int) < t.periodNs := by exact_mod_cast h
  rw [elapsedTicks_running h, Int.ediv_lt_iff_lt_mul hp, sub_lt_iff_lt_add']

/-- `d` ticks later, where that passes no multiple of 65536, the counter has gone up by `d`. -/
theorem currentCount_toNat_of_ticks {d : Int} (hticks : elapsedTicks t later = elapsedTicks t now + d) (hd : 0 ≤ d)
    (hwrap : (currentCount t now).toNat + d < 65536) :
    ((currentCount t later).toNat : Int) = (currentCount t now).toNat + d := by
  have hnow := currentCount_toInt t now
  have hlater := currentCount_toInt t later
  omega

/-- At the deadline the counter has gone up by its distance to the target (R217). -/
theorem elapsedTicks_deadline (h : 0 < t.periodNs) (p : TimerParams) (now : Int) :
    elapsedTicks t (nextAlarm p now t).deadline =
      elapsedTicks t now + ((nextAlarm p now t).target.toNat - (currentCount t now).toNat) :=
  elapsedTicks_at h _

theorem currentCount_le_target (p : TimerParams) (now : Int) (t : Timer) :
    (currentCount t now).toNat ≤ (nextAlarm p now t).target.toNat :=
  le_nextEvent p t _

/-- At its deadline the alarm finds the counter at its target. -/
theorem currentCount_deadline (h : 0 < t.periodNs) (p : TimerParams) (now : Int) :
    currentCount t (nextAlarm p now t).deadline = (nextAlarm p now t).target := by
  have hle := currentCount_le_target p now t
  have hlt := (nextAlarm p now t).target.isLt
  have := currentCount_toNat_of_ticks (elapsedTicks_deadline h p now) (by omega) (by omega)
  apply BitVec.eq_of_toNat_eq
  omega

/-- Between Rearm and its deadline the counter counts every tick, and stays below the target. -/
theorem count_before_deadline (h : 0 < t.periodNs) (hle : now ≤ later) (hlt : later < (nextAlarm p now t).deadline) :
    ((currentCount t later).toNat : Int) =
        (currentCount t now).toNat + (elapsedTicks t later - elapsedTicks t now) ∧
      (currentCount t now).toNat ≤ (currentCount t later).toNat ∧
      (currentCount t later).toNat < (nextAlarm p now t).target.toNat := by
  have hmono : elapsedTicks t now ≤ elapsedTicks t later := elapsedTicks_mono hle
  have hticks : elapsedTicks t later <
      elapsedTicks t now + ((nextAlarm p now t).target.toNat - (currentCount t now).toNat) :=
    (elapsedTicks_lt_iff h later _).2 hlt
  have htarget := (nextAlarm p now t).target.isLt
  have hcount := currentCount_toNat_of_ticks (add_sub_cancel (elapsedTicks t now) (elapsedTicks t later)).symm
    (by omega) (by omega)
  exact ⟨hcount, by omega, by omega⟩

/-- The deadline lies in the future exactly while the counter is below the target (R219). -/
theorem lt_deadline_iff (h : 0 < t.periodNs) (p : TimerParams) (now : Int) :
    now < (nextAlarm p now t).deadline ↔ (currentCount t now).toNat < (nextAlarm p now t).target.toNat := by
  calc now < (nextAlarm p now t).deadline
      ↔ elapsedTicks t now <
          elapsedTicks t now + ((nextAlarm p now t).target.toNat - (currentCount t now).toNat) :=
        (elapsedTicks_lt_iff h now _).symm
    _ ↔ (currentCount t now).toNat < (nextAlarm p now t).target.toNat := by omega

/-- Settles O26: the counter reaches the target at the deadline and not before it; at 0xFFFF nothing lies above the
counter, so that the event is Overflow, at no distance. -/
theorem deadlineIsTheNextArrival : Obligations.DeadlineIsTheNextArrival := by
  intro p t now a hrun ha
  obtain ⟨-, -, rfl⟩ := rearm_alarm_some ha
  have hcase : (currentCount t now).toNat < (nextAlarm p now t).target.toNat ∨
      nextEvent p t (currentCount t now) = (.overflow, 0xFFFF) := lt_nextEvent_or_overflow p t _
  refine ⟨currentCount_deadline hrun p now, fun hcount => ⟨?_, fun τ hle hlt heq => ?_⟩, fun hcount => ?_⟩
  · rw [lt_deadline_iff hrun]
    refine hcase.elim id fun hev => ?_
    have htarget : (nextAlarm p now t).target = 0xFFFF := congrArg Prod.snd hev
    rw [htarget]
    exact lt_of_le_of_ne (Nat.le_of_lt_succ (BitVec.isLt _)) fun he => hcount (BitVec.eq_of_toNat_eq he)
  · obtain ⟨-, -, hbelow⟩ := count_before_deadline hrun hle hlt
    exact hbelow.ne (congrArg BitVec.toNat heq)
  · have hnotBelow : ¬ (currentCount t now).toNat < (nextAlarm p now t).target.toNat := by
      rw [hcount]
      exact Nat.not_lt.2 (Nat.le_of_lt_succ (BitVec.isLt _))
    have hev := hcase.resolve_left hnotBelow
    exact ⟨not_lt.1 (mt (lt_deadline_iff hrun p now).1 hnotBelow), congrArg Prod.fst hev, congrArg Prod.snd hev⟩

/-- Before the deadline Rearm computes the alarm it has armed: the same event, as many ticks nearer as have gone by. -/
theorem nextAlarm_eq_before_deadline (h : 0 < t.periodNs) (hm : modeClass p t ≠ .pwm) (hle : now ≤ later)
    (hlt : later < (nextAlarm p now t).deadline) : nextAlarm p later t = nextAlarm p now t := by
  obtain ⟨hcount, hnotLess, hbelow⟩ := count_before_deadline h hle hlt
  have hev : nextEvent p t (currentCount t later) = nextEvent p t (currentCount t now) :=
    nextEvent_eq_of_count_below hm hnotLess hbelow
  simp only [nextAlarm, hev, Alarm.mk.injEq, true_and]
  congr 2
  omega

/-- Settles O27: what Rearm computes does not depend on what it writes, so that the later Rearm arms the same alarm. -/
theorem rearmIsIdempotent : Obligations.RearmIsIdempotent := by
  intro p t now later a ha hle hlt
  obtain ⟨hrun, hm, rfl⟩ := rearm_alarm_some ha
  have hsame : nextAlarm p later (rearm p now t) = nextAlarm p now t := by
    rw [rearm_nextAlarm, nextAlarm_eq_before_deadline hrun hm hle hlt]
  rw [rearm_running (t := rearm p now t) (by simpa using hrun) (by simpa using hm), hsame, ← ha]

/-! ### PWM modes -/

/-- ALARM_FIRE is not enabled on a unit with no alarm (R233). -/
theorem exec_alarmFire_unarmed (h : Addresses s u) (ha : u.regs.alarm = none) :
    exec .alarmFire s = .refused .alarmNotDue := by
  show execAlarmFire s = _
  rw [execAlarmFire, onTimer_of_addresses h, ha]

/-- A unit that meets the invariant has no alarm in a PWM mode (R38.2). -/
theorem TimerInv.alarm_eq_none_of_pwm (h : TimerInv p now t) (hm : modeClass p t = .pwm) : t.alarm = none := by
  have hunarmed : ¬ t.armed = true := fun harmed => (h.armed_iff.1 harmed).2 hm
  simpa [Timer.armed] using hunarmed

/-- Settles O32: the invariant arms supported modes only. -/
theorem pwmModeIsSilent : Obligations.PwmModeIsSilent := by
  intro s u hinv hu hm
  have halarm := (hinv.units u (List.mem_of_getElem? hu.2)).alarm_eq_none_of_pwm hm
  exact ⟨halarm, exec_alarmFire_unarmed hu halarm⟩

end Sys2Proof.Machine

/-! PROOF. The interrupt latch (`44_interrupt_latch.md` R233 to R243): when an expiry is enabled, what it does to its
unit, and that nothing but WR_IFR and CPU_RESET takes a flag back. The unit after an expiry is `afterExpiry`; each part
of it is said once, and the obligations are assembled from those lemmas. -/

namespace Sys2Proof.Machine

variable {i : Instr} {s s' : State} {k : Nat} {time : Int} {u u' : TimerUnit} {a : Alarm} {p : TimerParams} {now : Int}
  {t t' : Timer}

/-! ### When an expiry is enabled -/

/-- ALARM_FIRE is not enabled before the deadline (R233). -/
theorem exec_alarmFire_early (h : Addresses s u) (ha : u.regs.alarm = some a) (hlt : s.now < a.deadline) :
    exec .alarmFire s = .refused .alarmNotDue := by
  show execAlarmFire s = _
  rw [execAlarmFire, onTimer_of_addresses h, ha]
  exact if_pos hlt

/-- Settles O30: the handler asks for an armed alarm, and then for its deadline. -/
theorem alarmFireOnlyWhenDue : Obligations.AlarmFireOnlyWhenDue := by
  rintro s u hu (ha | ⟨a, ha, hlt⟩)
  · exact exec_alarmFire_unarmed hu ha
  · exact exec_alarmFire_early hu ha hlt

/-- Settles O31: the expiry that comes next is that of an armed alarm at its expiry time, which the invariant of its
unit speaks of. -/
theorem arrivedTickEqualsTarget : Obligations.ArrivedTickEqualsTarget := by
  intro s k time hinv hop
  obtain ⟨⟨u, a, hu, ha, rfl⟩, -⟩ := nextExpiry_some (nextOperation_expiry hop)
  have hunit : TimerInv u.params s.now u.regs := (machineInv_iff.1 hinv).1 k u hu
  exact ⟨u, a, hu, ha, rfl, le_max_left .., hunit.alarm_arrives a ha⟩

/-! ### The unit after an expiry -/

/-- The handler disarms the unit before its Rearm. -/
@[simp] theorem raiseFlags_alarm (p now kind t pending) :
    (raiseFlags p now kind t pending).1.alarm = none := by rw [raiseFlags_timer]

/-- Without the alarm and the diagnostic it writes, Rearm has done nothing to a unit that was not armed. -/
theorem rearm_undone (h : t.alarm = none) (p : TimerParams) (now : Int) :
    { rearm p now t with alarm := none, diag := t.diag } = t := by
  rw [rearm_eq, ← h]

/-- ALARM_FIRE of a due alarm (R234). -/
theorem exec_alarmFire_afterExpiry (h : Addresses s u) (ha : u.regs.alarm = some a) (hd : a.deadline ≤ s.now) :
    exec .alarmFire s = .next
      { unitChanged s u (afterExpiry s u a).1 none with
        cpu := { s.cpu with pending := (afterExpiry s u a).2 } } :=
  exec_alarmFire h ha hd

/-- The expiry of a due alarm is performed, at its own time, and leaves the addressed unit as `afterExpiry` says. -/
theorem exec_alarmFire_addresses (h : Addresses s u) (ha : u.regs.alarm = some a) (hd : a.deadline ≤ s.now) :
    ∃ s1, exec .alarmFire s = .next s1 ∧ Addresses s1 { u with regs := (afterExpiry s u a).1 } ∧ s1.now = s.now :=
  ⟨_, exec_alarmFire_afterExpiry h ha hd, addresses_unitChanged h _ none, rfl⟩

/-- An expiry leaves the registers and the clock as they are. -/
theorem sameRegisters_afterExpiry (s : State) (u : TimerUnit) (a : Alarm) :
    SameRegisters u.regs (afterExpiry s u a).1 := by
  rw [afterExpiry, rearm_eq, raiseFlags_timer]
  exact ⟨rfl, rfl, rfl, rfl, rfl, rfl, rfl, rfl, rfl, rfl, rfl⟩

theorem afterExpiry_epoch (s : State) (u : TimerUnit) (a : Alarm) :
    (afterExpiry s u a).1.epoch = if resetsCounter u.params u.regs a.kind then s.now else u.regs.epoch := by
  rw [afterExpiry, rearm_epoch, raiseFlags_timer]

/-- An expiry of a resetting kind moves the epoch to its own time (R235 to R237). -/
theorem afterExpiry_epoch_reset (h : Resets u.params u.regs a.kind) (s : State) :
    (afterExpiry s u a).1.epoch = s.now := by
  rw [afterExpiry_epoch, if_pos (resetsCounter_iff .. |>.2 h)]

/-- An expiry of any other kind keeps the epoch. -/
theorem afterExpiry_epoch_kept (h : ¬ Resets u.params u.regs a.kind) (s : State) :
    (afterExpiry s u a).1.epoch = u.regs.epoch := by
  rw [afterExpiry_epoch, if_neg (mt (resetsCounter_iff ..).1 h)]

/-- The flag of a source after an expiry (R231). -/
theorem afterExpiry_flag (h : u.params.bitPositions.Nodup) (s : State) (a : Alarm) (x : Source) :
    (afterExpiry s u a).1.ifr.getLsbD (bitIndex u.params x) =
      (u.regs.ifr.getLsbD (bitIndex u.params x) ||
        hits u.params u.regs a.kind (currentCount u.regs s.now) x) := by
  rw [afterExpiry, rearm_ifr, raiseFlags_flag h]

/-- A bit of the flags register that is no source's keeps its value. -/
theorem afterExpiry_unused_flag {j : Nat} (h : ∀ x : Source, bitIndex u.params x ≠ j) (s : State) (a : Alarm) :
    (afterExpiry s u a).1.ifr.getLsbD j = u.regs.ifr.getLsbD j := by
  rw [afterExpiry, rearm_ifr, raiseFlags_other _ _ _ _ _ h]

/-- The unit after an expiry is what Rearm makes of it without its alarm and its diagnostic (R240). -/
theorem afterExpiry_eq_rearm (s : State) (u : TimerUnit) (a : Alarm) :
    (afterExpiry s u a).1 =
      rearm u.params s.now { (afterExpiry s u a).1 with alarm := none, diag := u.regs.diag } := by
  have hundone := rearm_undone (raiseFlags_alarm u.params s.now a.kind u.regs s.cpu.pending) u.params s.now
  rw [raiseFlags_diag] at hundone
  rw [afterExpiry, hundone]

/-- Settles O28: each part of the unit and of the bitmap after an expiry, with the sources the handler tests those
R234 names. -/
theorem alarmFireRaisesExactlyTheMatchingSources : Obligations.AlarmFireRaisesExactlyTheMatchingSources := by
  intro s u a hu hbits ha hd
  refine ⟨(afterExpiry s u a).1, (afterExpiry s u a).2, exec_alarmFire_afterExpiry hu ha hd,
    sameRegisters_afterExpiry s u a, fun h => afterExpiry_epoch_reset h s, fun h => afterExpiry_epoch_kept h s,
    fun x => ?flag, fun j hj => afterExpiry_unused_flag hj s a, fun x => ?line, raiseFlags_pending_length ..,
    fun j hj => ?pending, afterExpiry_eq_rearm s u a⟩
  case flag => rw [afterExpiry_flag hbits, Bool.or_eq_true, hits_iff]
  case line => rw [afterExpiry_line, Bool.or_eq_true, hits_iff]
  case pending =>
    simp only [← hits_iff]
    exact raiseFlags_pending _ _ _ _ _ hj

/-! ### The compare-A top -/

/-- The counter depends on the clock and the epoch only (R122, R124). -/
theorem currentCount_congr (hperiod : t'.periodNs = t.periodNs) (hepoch : t'.epoch = t.epoch) (now : Int) :
    currentCount t' now = currentCount t now := by
  simp only [currentCount, elapsedTicks, hperiod, hepoch]

/-- An armed compare-A alarm has the compare register A as its target (R211, R38.3). -/
theorem TimerInv.compareA_target (h : TimerInv p now t) (ha : t.alarm = some a) (hk : a.kind = .compareA) :
    a.target = t.ocra := by
  have hm : modeClass p t ≠ .pwm := fun hpwm => absurd (h.alarm_eq_none_of_pwm hpwm) (by simp [ha])
  obtain ⟨τ, -, -, rfl⟩ := h.alarm_current a ha
  have hcand : Candidate p t (currentCount t τ) .compareA (nextAlarm p τ t).target := by
    rw [← hk]
    exact candidate_nextEvent hm _
  obtain ⟨-, htarget, -⟩ := hcand
  exact htarget

/-- A due alarm finds the counter at its target now (R243). -/
theorem TimerInv.count_of_due (h : TimerInv p now t) (ha : t.alarm = some a) (hd : a.deadline ≤ now) :
    currentCount t now = a.target := by
  rw [← h.alarm_arrives a ha, fireTime, max_eq_right hd]

/-- A compare-A expiry resets the counter in CTC_A mode only (R236). -/
theorem resets_compareA_iff : Resets p t .compareA ↔ modeClass p t = .ctcA := by
  simp [Resets]

/-- RD_CNTL of a counter at 0 returns 0 (R149). -/
theorem exec_rdCntl_of_zero (h : Addresses s u) (hzero : currentCount u.regs s.now = 0) :
    ∃ s', exec .rdCntl s = .next s' ∧ s'.result = some 0 := by
  refine ⟨_, exec_bus h rfl, ?_⟩
  show some (lowByte (currentCount u.regs s.now)) = some 0
  rw [hzero]
  rfl

/-- Settles O29: in CTC_A mode the epoch is the time of the expiry, and compare A stands at its target; in every other
mode the epoch stays. -/
theorem compareTopResetsTheCounter : Obligations.CompareTopResetsTheCounter := by
  intro s u a hinv hu ha hd hk
  have hunit : TimerInv u.params s.now u.regs := hinv.units u (List.mem_of_getElem? hu.2)
  have hcount : currentCount u.regs s.now = u.regs.ocra :=
    (hunit.count_of_due ha hd).trans (hunit.compareA_target ha hk)
  obtain ⟨s1, hexec, hu1, hnow⟩ := exec_alarmFire_addresses hu ha hd
  refine ⟨s1, _, hexec, hu1, fun hm τ => ?other, fun hm => ?top⟩
  case other =>
    have hkept : ¬ Resets u.params u.regs a.kind := by rwa [hk, resets_compareA_iff]
    obtain ⟨-, -, -, -, -, -, -, -, -, -, hperiod⟩ := sameRegisters_afterExpiry s u a
    exact currentCount_congr hperiod (afterExpiry_epoch_kept hkept s) τ
  case top =>
    have hreset : Resets u.params u.regs a.kind := by rwa [hk, resets_compareA_iff]
    have hzero : currentCount (afterExpiry s u a).1 s1.now = 0 :=
      currentCount_epoch ((afterExpiry_epoch_reset hreset s).trans hnow.symm)
    refine ⟨hzero, exec_rdCntl_of_zero hu1 hzero, ?_, ?_⟩
    · simp [afterExpiry_flag hunit.bits_distinct, hits, hk]
    · simp [afterExpiry_flag hunit.bits_distinct, hits, compareHit, hcount, Timer.enabled, bitOf]

/-! ### Flags stay -/

/-- WR_CRB writes no flag and no line. -/
theorem writeCrb_flags (v : Byte) (p : TimerParams) (now : Int) (t : Timer) :
    (writeCrb v p now t).ifr = t.ifr ∧ (writeCrb v p now t).line = t.line := by
  rw [writeCrb_eq, rearm_ifr, rearm_line]
  split <;> exact ⟨rfl, rfl⟩

/-- WR_ICRL writes no flag and no line. -/
theorem writeIcrl_flags (v : Byte) (p : TimerParams) (now : Int) (t : Timer) :
    (writeIcrl v p now t).ifr = t.ifr ∧ (writeIcrl v p now t).line = t.line := by
  unfold writeIcrl
  split
  · exact ⟨rearm_ifr .., rearm_line ..⟩
  · exact ⟨rfl, rfl⟩

/-- Of the bus operations only WR_IFR writes the flags and the lines. -/
theorem afterBus_flags (hi : ∀ v, i ≠ .wrIfr v) {r : Option Byte} (h : afterBus i p now t = some (t', r)) :
    t'.ifr = t.ifr ∧ t'.line = t.line := by
  cases i <;> cases h
  case wrIfr v => exact absurd rfl (hi v)
  case wrCra v => simp [writeCra_eq]
  case wrCrb v => exact writeCrb_flags ..
  case wrCrc v => simp [writeCrc_eq]
  case wrCntl v => simp [writeCntl_eq]
  case wrIcrl v => exact writeIcrl_flags ..
  case wrIcrh v => split <;> exact ⟨rfl, rfl⟩
  all_goals simp

/-- An expiry clears no flag, whatever the bit positions (R241). -/
theorem afterExpiry_flag_mono (s : State) (u : TimerUnit) (a : Alarm) {j : Nat} (h : u.regs.ifr.getLsbD j = true) :
    (afterExpiry s u a).1.ifr.getLsbD j = true := by
  rw [afterExpiry, rearm_ifr, raiseFlags_mono _ _ _ _ _ h]

/-- An expiry lowers no line (R241). -/
theorem afterExpiry_line_mono (s : State) (u : TimerUnit) (a : Alarm) {x : Source} (h : u.regs.line.get x = true) :
    (afterExpiry s u a).1.line.get x = true := by
  rw [afterExpiry_line, h, Bool.true_or]

/-- Settles O43: a bus operation keeps the flags and lines of its unit, an expiry only adds to them, and an event of
the CPU side touches no unit. -/
theorem flagsPersistUntilCleared : Obligations.FlagsPersistUntilCleared := by
  intro i s s' k u u' x h hack hreset hu hu'
  obtain ⟨-, ⟨v, t, r, hv, hb, rfl⟩ | ⟨v, a, -, hv, -, -, rfl⟩ | ⟨-, rfl⟩ | ⟨b, -, rfl⟩ | ⟨c, -, -, rfl⟩ |
    ⟨-, rfl⟩ | ⟨hi, -⟩⟩ := exec_next h
  case inl =>
    rcases unitAt_unitChanged_cases hv hu hu' with rfl | ⟨-, rfl, rfl⟩
    · exact ⟨id, id⟩
    · obtain ⟨hifr, hline⟩ := afterBus_flags hack hb
      exact ⟨fun hflag => hifr ▸ hflag, fun hhigh => hline ▸ hhigh⟩
  case inr.inl =>
    rcases unitAt_unitChanged_cases (r := none) hv hu hu' with rfl | ⟨-, rfl, rfl⟩
    · exact ⟨id, id⟩
    · exact ⟨afterExpiry_flag_mono s v a, afterExpiry_line_mono s v a⟩
  case inr.inr.inr.inr.inr.inr => exact absurd hi hreset
  all_goals
    obtain rfl : u = u' := Option.some.inj (hu.symm.trans hu')
    exact ⟨id, id⟩

end Sys2Proof.Machine

/-! PROOF. The CPU interrupt controller and the environment actions that stand for the CPU core (`60_exceptions.md` R250
to R277, with the decisions D23, D24 and D31): the stack and its bytes, the decision point and the return from it, and
that alarms due at one time expire in either order. -/

namespace Sys2Proof.Machine

variable {s : State} {m : MachineParams} {c : Cpu} {i j k : Nat} {u : TimerUnit} {a : Alarm}

/-! ### The stack and its bytes -/

@[simp] theorem stackPointer_stackPush8 (base : Int) (v : Byte) (stack : List Byte) :
    stackPointer base (stackPush8 v stack) = stackPointer base stack - 1 := by
  simp [stackPointer, stackPush8, Int.sub_sub]

/-- Nothing is stored at the stack pointer or below it. -/
theorem stackByte_free {base addr : Int} {stack : List Byte} (h : addr ≤ stackPointer base stack) :
    stackByte base stack addr = none := if_pos h

/-- The byte `n` places above the last stored one. -/
theorem stackByte_stored {base addr : Int} {stack : List Byte} {n : Nat} (h : addr = stackPointer base stack + 1 + n) :
    stackByte base stack addr = stack[n]? := by
  have habove : ¬ addr ≤ stackPointer base stack := by omega
  have hplace : (addr - stackPointer base stack - 1).toNat = n := by omega
  rw [stackByte, if_neg habove, hplace]

/-- A push stores its byte at the stack pointer and keeps every other (R262). -/
theorem stackByte_stackPush8 (base : Int) (v : Byte) (stack : List Byte) (addr : Int) :
    stackByte base (stackPush8 v stack) addr =
      if addr = stackPointer base stack then some v else stackByte base stack addr := by
  have hsp := stackPointer_stackPush8 base v stack
  rcases lt_trichotomy addr (stackPointer base stack) with hlt | heq | hgt
  · rw [if_neg hlt.ne, stackByte_free (by omega), stackByte_free hlt.le]
  · rw [if_pos heq, stackByte_stored (n := 0) (by omega)]
    rfl
  · obtain ⟨n, hn⟩ := Int.le.dest (Int.add_one_le_of_lt hgt)
    rw [if_neg hgt.ne', stackByte_stored (n := n + 1) (by omega), stackByte_stored (n := n) hn.symm]
    rfl

/-- Settles O40: a push changes what is stored at the stack pointer and nowhere else, and moves the stack pointer
down. -/
theorem stackPushStoresThenDecrements : Obligations.StackPushStoresThenDecrements := by
  intro base v stack
  refine ⟨?_, stackPointer_stackPush8 base v stack, fun addr hne => ?_⟩
  · rw [stackByte_stackPush8, if_pos rfl]
  · rw [stackByte_stackPush8, if_neg hne]

/-- Settles O36: the push, byte by byte, is the list of the program counter's bytes before the stack. -/
theorem programCounterPushedLowByteFirst : Obligations.ProgramCounterPushedLowByteFirst := pushPc_eq

/-- One turn of the pop: the byte becomes the least significant one. -/
theorem toNat_shiftLeft_or_setWidth (acc : Pc) (v : Byte) :
    ((acc <<< 8) ||| v.setWidth 24).toNat = (acc.toNat * 256 + v.toNat) % 2 ^ 24 := by
  have hshift : (acc <<< 8).toNat = (acc.toNat % 2 ^ 16) <<< 8 := by
    rw [BitVec.toNat_shiftLeft, Nat.shiftLeft_eq, Nat.shiftLeft_eq]
    omega
  have hbyte := v.isLt
  rw [BitVec.toNat_or, hshift, BitVec.toNat_setWidth, Nat.mod_eq_of_lt (a := v.toNat) (by omega),
    ← Nat.shiftLeft_add_eq_or_of_lt hbyte, Nat.shiftLeft_eq]
  omega

/-- A pop gives back the program counter whose bytes are on top, and the stack below it (R264). -/
theorem popPc_pcBytes_append {w : PcWidth} {pc : Pc} (h : fitsPc w pc) (below : List Byte) :
    popPc w (pcBytes w pc ++ below) = some (pc, below) := by
  have hpopped : (pcBytes w pc).foldl (fun (acc : Pc) (v : Byte) => (acc <<< 8) ||| v.setWidth 24) 0 = pc := by
    apply BitVec.eq_of_toNat_eq
    unfold fitsPc at h
    cases w <;>
      simp only [PcWidth.bytes] at h <;>
      simp [pcBytes, PcWidth.bytes, List.range_succ, toNat_shiftLeft_or_setWidth, -BitVec.toNat_or] <;>
      omega
  have hlen : (pcBytes w pc).length = w.bytes := pcBytes_length w pc
  have henough : ¬ (pcBytes w pc ++ below).length < w.bytes := by
    rw [List.length_append, hlen]
    omega
  rw [popPc, if_neg henough, List.take_left' hlen, List.drop_left' hlen, hpopped]

/-! ### The return -/

/-- The return pops the program counter on top and sets the global enable (R264). -/
theorem exec_envReti_pcBytes {pc : Pc} {below : List Byte} (hh : s.halted = false) (hfits : fitsPc s.params.pcWidth pc)
    (hstack : s.cpu.stack = pcBytes s.params.pcWidth pc ++ below) :
    exec .envReti s = .next (cpuChanged s { s.cpu with pc := pc, stack := below, I := true }) := by
  apply exec_envReti hh
  rw [returnFromInterrupt, hstack, popPc_pcBytes_append hfits]
  rfl

/-- With less than one program counter on the stack the return is refused (U19). -/
theorem exec_envReti_refused (hh : s.halted = false) (hshort : s.cpu.stack.length < s.params.pcWidth.bytes) :
    exec .envReti s = .refused .nothingPushed := by
  show execEnvReti s = _
  rw [execEnvReti, ifRunning_of_not_halted hh, returnFromInterrupt, popPc_none hshort]
  rfl

/-- Settles O38: the bytes on top are put together again, or there are too few of them. -/
theorem returnRestoresThePushedCounter : Obligations.ReturnRestoresThePushedCounter :=
  fun _ _ _ hh => ⟨exec_envReti_pcBytes hh, exec_envReti_refused hh⟩

/-! ### The decision point -/

/-- A reset-class request is dispatched, whatever the global enable and the bitmap are (R257). -/
theorem decisionPoint_of_resetReq (hr : c.resetReq = true) :
    decisionPoint m c = { takeInterrupt m m.resetVector c with resetReq := false } := if_pos hr

/-- Without one, and with the global enable set, the least pending index is dispatched (R254). -/
theorem decisionPoint_of_leastPending (hr : c.resetReq = false) (hI : c.I = true)
    (hi : leastPending c.pending = some i) :
    decisionPoint m c = { takeInterrupt m (vectorOf m i) c with pending := setPending c.pending i false } := by
  simp [decisionPoint, hr, hI, hi]

/-- Otherwise the decision point does nothing (R253). -/
theorem decisionPoint_of_idle (hr : c.resetReq = false) (hidle : c.I = false ∨ leastPending c.pending = none) :
    decisionPoint m c = c := by
  rcases hidle with hI | hnone
  · simp [decisionPoint, hr, hI]
  · simp [decisionPoint, hr, hnone]

/-- Settles O35: the request is asked for before the enable and the bitmap, and the vector is truncated to the width
(R106). -/
theorem resetRequestDispatchesFirst : Obligations.ResetRequestDispatchesFirst := by
  intro s hh hr
  rw [exec_decisionPoint hh, decisionPoint_of_resetReq hr]
  rfl

/-- Settles O34: the pending source of least index is the one `leastPending` finds. -/
theorem lowestPendingIndexDispatches : Obligations.LowestPendingIndexDispatches := by
  intro s hh hr
  rw [exec_decisionPoint hh]
  refine ⟨fun i hI hi hleast => ?_, fun hidle => ?_⟩
  · rw [decisionPoint_of_leastPending hr hI (leastPending_eq_some.2 ⟨hi, hleast⟩)]
    rfl
  · rw [decisionPoint_of_idle hr (hidle.imp_right leastPending_eq_none.2)]
    rfl

/-- Settles O39: the dispatch leaves the interrupted program counter on top of the stack, where the return finds it. -/
theorem dispatchThenReturnResumes : Obligations.DispatchThenReturnResumes := by
  intro s i hh hfits hr hI hi hleast
  obtain ⟨hdispatch, -⟩ := lowestPendingIndexDispatches s hh hr
  exact ⟨_, hdispatch i hI hi hleast, exec_envReti_pcBytes hh hfits (pushPc_eq ..)⟩

/-- Settles O37: each of the two is an update of its own bit of the CPU side. -/
theorem environmentActionsSetOneBit : Obligations.EnvironmentActionsSetOneBit :=
  fun _ b hh => ⟨exec_envSetI hh b, exec_envResetReq hh⟩

/-! ### Simultaneous expiries -/

/-- The lines are told apart by the five sources. -/
theorem Lines.ext_get {l l' : Lines} (h : ∀ x, l.get x = l'.get x) : l = l' := by
  cases l
  cases l'
  rw [Lines.mk.injEq]
  exact ⟨h .ovf, h .oca, h .ocb, h .occ, h .icf⟩

/-- The handler leaves a unit the same whatever the pending bitmap is. -/
theorem raiseFlags_timer_congr (p now kind t pending pending') :
    (raiseFlags p now kind t pending).1 = (raiseFlags p now kind t pending').1 := by
  have hline : (raiseFlags p now kind t pending).1.line = (raiseFlags p now kind t pending').1.line :=
    Lines.ext_get fun x => by rw [raiseFlags_line, raiseFlags_line]
  rw [raiseFlags_timer p now kind t pending, raiseFlags_timer p now kind t pending',
    raiseFlags_ifr p now kind t pending pending', hline]

/-- The handlers of two units at one time leave the same bitmap in either order: each adds bits of its own choice. -/
theorem raiseFlags_pending_comm (p p' now kind kind' t t' pending) :
    (raiseFlags p' now kind' t' (raiseFlags p now kind t pending).2).2 =
      (raiseFlags p now kind t (raiseFlags p' now kind' t' pending).2).2 := by
  apply pending_ext (by simp)
  intro n hn
  have hn' : n < pending.length := by simpa using hn
  rw [Bool.eq_iff_iff, raiseFlags_pending _ _ _ _ _ (by simpa), raiseFlags_pending _ _ _ _ _ hn',
    raiseFlags_pending _ _ _ _ _ (by simpa), raiseFlags_pending _ _ _ _ _ hn']
  exact or_right_comm

/-- The state after the expiry, at the present time, of alarm `a` of unit `u`, which has number `k`. -/
def expired (s : State) (k : Nat) (u : TimerUnit) (a : Alarm) : State :=
  { s with
    sel := k
    timers := s.timers.set k { u with regs := (afterExpiry s u a).1 }
    cpu := { s.cpu with pending := (afterExpiry s u a).2 }
    result := none }

/-- ALARM_FIRE of the due alarm of unit `k` (R234). -/
theorem exec_alarmFire_expired (hh : s.halted = false) (hu : unitAt s k = some u) (ha : u.regs.alarm = some a)
    (hd : a.deadline ≤ s.now) : exec .alarmFire { s with sel := k } = .next (expired s k u a) :=
  exec_alarmFire_afterExpiry (s := { s with sel := k }) ⟨hh, hu⟩ ha hd

/-- An expiry leaves every other unit as it was. -/
theorem unitAt_expired_of_ne (hne : k ≠ j) : unitAt (expired s k u a) j = unitAt s j :=
  List.getElem?_set_ne hne

/-- Expiries of two units at one time commute, but for the unit addressed last. -/
theorem expired_comm (hne : j ≠ k) (s : State) (u v : TimerUnit) (a b : Alarm) :
    { expired (expired s j u a) k v b with sel := j } = expired (expired s k v b) j u a := by
  simp only [expired, afterExpiry, raiseFlags_timer_congr _ _ _ _ (raiseFlags _ _ _ _ _).2 s.cpu.pending]
  rw [List.set_comm _ _ hne, raiseFlags_pending_comm]

/-- Settles O58: the second alarm is armed and due after the first has expired, and the two expiries commute. -/
theorem simultaneousAlarmsCommute : Obligations.SimultaneousAlarmsCommute := by
  intro s j k uj uk aj ak hh hne huj huk haj hak hdj hdk
  have huk' : unitAt (expired s j uj aj) k = some uk := (unitAt_expired_of_ne hne).trans huk
  have huj' : unitAt (expired s k uk ak) j = some uj := (unitAt_expired_of_ne hne.symm).trans huj
  exact ⟨_, _, _, _, exec_alarmFire_expired hh huj haj hdj, exec_alarmFire_expired hh huk' hak hdk,
    exec_alarmFire_expired hh huk hak hdk, exec_alarmFire_expired hh huj' haj hdj, expired_comm hne s uj uk aj ak⟩

end Sys2Proof.Machine

/-! PROOF. Reset and the counter's hazard at its maximum (`70_reset_and_hazards.md` R290, R292, R306): a counter write
of 0xFFFF arms Overflow at no distance, so that its expiry is due at the time of the write; and CPU_RESET leaves every
unit at reset, but for its diagnostics. -/

namespace Sys2Proof.Machine

variable {s : State} {u : TimerUnit} {p : TimerParams} {t : Timer}

/-! ### A counter write of 0xFFFF -/

/-- No event lies above a counter at 0xFFFF, so that the chosen one is Overflow (R219). -/
theorem nextEvent_at_max (p : TimerParams) (t : Timer) : nextEvent p t 0xFFFF = (.overflow, 0xFFFF) :=
  (lt_nextEvent_or_overflow p t 0xFFFF).resolve_left (Nat.not_lt.2 (Nat.le_of_lt_succ (BitVec.isLt _)))

/-- At the time of a counter write as many ticks have elapsed as the value counts (R126). -/
theorem elapsedTicks_writeRaw (hrun : 0 < t.periodNs) (now : Int) (value : Word16) :
    elapsedTicks (writeRaw now value t) now = value.toNat := by
  have hat := elapsedTicks_at (t := writeRaw now value t) hrun value.toNat
  rwa [writeRaw_epoch, writeRaw_periodNs, sub_add_cancel] at hat

/-- A running counter written to 0xFFFF has its next event at once (R217, R306). -/
theorem nextAlarm_writeRaw_max (hrun : 0 < t.periodNs) (p : TimerParams) (now : Int) :
    nextAlarm p now (writeRaw now 0xFFFF t) = { kind := .overflow, target := 0xFFFF, deadline := now } := by
  have hticks := elapsedTicks_writeRaw hrun now 0xFFFF
  have hcount : currentCount (writeRaw now 0xFFFF t) now = 0xFFFF := currentCount_eq_ofNat hticks
  simp only [nextAlarm, hcount, nextEvent_at_max, hticks, writeRaw_epoch, writeRaw_periodNs, sub_self, add_zero,
    sub_add_cancel]

/-- WR_CNTL of 0xFF, with 0xFF in the latch, arms Overflow for the present time (R150, R306). -/
theorem writeCntl_max_alarm (hlatch : t.tempHigh = 0xFF) (hrun : 0 < t.periodNs) (hm : modeClass p t ≠ .pwm)
    (now : Int) :
    (writeCntl 0xFF p now t).alarm = some { kind := .overflow, target := 0xFFFF, deadline := now } := by
  have hvalue : joinBytes t.tempHigh 0xFF = 0xFFFF := by
    rw [hlatch]
    rfl
  rw [writeCntl, hvalue, rearm_running (t := writeRaw now 0xFFFF t) hrun hm, nextAlarm_writeRaw_max hrun]

/-- The expiry of a due Overflow resets the counter and flags OVF if enabled, and the next counter read returns 0
(R149, R235). -/
theorem exec_alarmFire_overflow (h : Addresses s u) (hbits : u.params.bitPositions.Nodup) {a : Alarm}
    (ha : u.regs.alarm = some a) (hk : a.kind = .overflow) (hd : a.deadline ≤ s.now) :
    ∃ s2 u2 s3, exec .alarmFire s = .next s2 ∧ Addresses s2 u2 ∧ s2.now = s.now ∧
      u2.regs.ifr.getLsbD (bitIndex u.params .ovf) =
        (u.regs.ifr.getLsbD (bitIndex u.params .ovf) || u.regs.imsk.getLsbD (bitIndex u.params .ovf)) ∧
      exec .rdCntl s2 = .next s3 ∧ s3.result = some 0 ∧ currentCount u2.regs s2.now = 0 := by
  obtain ⟨s2, hfire, hu2, hnow⟩ := exec_alarmFire_addresses h ha hd
  have hzero : currentCount (afterExpiry s u a).1 s2.now = 0 :=
    currentCount_epoch ((afterExpiry_epoch_reset (.inl hk) s).trans hnow.symm)
  obtain ⟨s3, hread, hresult⟩ := exec_rdCntl_of_zero hu2 hzero
  refine ⟨s2, _, s3, hfire, hu2, hnow, ?flag, hread, hresult, hzero⟩
  case flag => simp [afterExpiry_flag hbits, hits, hk, Timer.enabled, bitOf]

/-- Settles O33: the write arms Overflow for its own time, so that the expiry is due at once; the write itself changes
neither the flags nor the mask. -/
theorem counterWriteOfFFFFOverflowsAtOnce : Obligations.CounterWriteOfFFFFOverflowsAtOnce := by
  intro s u hu hbits hlatch hrun hm
  have hwrite : exec (.wrCntl 0xFF) s = .next (unitChanged s u (writeCntl 0xFF u.params s.now u.regs) none) :=
    exec_bus hu rfl
  have hu1 := addresses_unitChanged hu (writeCntl 0xFF u.params s.now u.regs) none
  have harmed := writeCntl_max_alarm hlatch hrun hm s.now
  obtain ⟨s2, u2, s3, hfire, hu2, hnow, hflag, hread⟩ := exec_alarmFire_overflow hu1 hbits harmed rfl le_rfl
  simp only [writeCntl_eq, rearm_ifr, rearm_imsk] at hflag
  exact ⟨_, _, s2, u2, s3, hwrite, hu1, harmed, hfire, hu2, hnow, hflag, hread⟩

/-! ### CPU_RESET -/

/-- A unit after CPU_RESET is one at reset that has kept its diagnostics (R290, R292). -/
theorem resetTimer_eq (now : Int) (t : Timer) :
    resetTimer now t = { Timer.atReset now with diag := t.diag } := rfl

/-- Settles O41: every unit is put back by `resetTimer`, and every bit of the bitmap is cleared. -/
theorem resetClearsEveryUnit : Obligations.ResetClearsEveryUnit := by
  intro s hh
  refine ⟨_, exec_cpuReset hh, fun k u hu => ?units, List.length_map .., rfl, List.map_const' ..⟩
  case units =>
    rw [unitAt] at hu
    rw [← resetTimer_eq, unitAt, List.getElem?_map, hu, Option.map_some]

end Sys2Proof.Machine
